-- ==== Sys2Proof/Word.lean ====
section
/-! DEFINITION. The bit widths of the machine (00_scope.md R5, R7): words, bytes, nibbles, 12-bit addresses, register ids. -/

namespace Sys2Proof

/-- An 8-bit register, timer or memory byte (R5 REG_WIDTH, TIMER_WIDTH). -/
abbrev Byte := BitVec 8

/-- A 16-bit instruction word, program counter, address register or stack slot (R5). -/
abbrev Word := BitVec 16

/-- A 12-bit address operand NNN (R63). -/
abbrev Addr := BitVec 12

/-- One nibble of an instruction word, and the 4-bit constant N (R61, R63). -/
abbrev Nibble := BitVec 4

/-- A register id 0..15 (R63); also the number of a key of the keypad (R21). -/
abbrev Reg := Fin 16

end Sys2Proof
end

