-- ==== Sys2Proof/Syntax.lean ====
section
/-! DEFINITION. The instructions: one constructor per row of spec/opcode_table.json, in the table's order, with the operands of the
decode table (30_encoding.md R63, R66). -/

namespace Sys2Proof

/-- A decoded instruction (R23, R63): a tag and up to three operands. The constructor's name is the document's tag. -/
inductive Instr where
  /-- `0-0E` (R150). -/
  | clearScreen
  /-- `0-EE` (R103). -/
  | returnFromSub
  /-- `0NNN`, else (R100). -/
  | machineCodeCall (addr : Addr)
  /-- `1NNN` (R101). -/
  | jump (addr : Addr)
  /-- `2NNN` (R102). -/
  | callSub (addr : Addr)
  /-- `3XNN` (R110). -/
  | skipIfEqualConst (x : Reg) (nn : Byte)
  /-- `4XNN` (R111). -/
  | skipIfNotEqualConst (x : Reg) (nn : Byte)
  /-- `5XY0` (R112). -/
  | skipIfRegEqual (x y : Reg)
  /-- `6XNN` (R120). -/
  | setConst (x : Reg) (nn : Byte)
  /-- `7XNN` (R121). -/
  | addConst (x : Reg) (nn : Byte)
  /-- `8XY0` (R122). -/
  | set (x y : Reg)
  /-- `8XY1` (R123). -/
  | or (x y : Reg)
  /-- `8XY2` (R124). -/
  | and (x y : Reg)
  /-- `8XY3` (R125). -/
  | xor (x y : Reg)
  /-- `8XY4` (R126). -/
  | addWithCarry (x y : Reg)
  /-- `8XY5` (R127). -/
  | subWithBorrow (x y : Reg)
  /-- `8XY6` (R128). -/
  | shiftRight (x y : Reg)
  /-- `8XY7` (R129). -/
  | reverseSub (x y : Reg)
  /-- `8XYE` (R130). -/
  | shiftLeft (x y : Reg)
  /-- `9XY0` (R113). -/
  | skipIfRegNotEqual (x y : Reg)
  /-- `ANNN` (R140). -/
  | setAddressRegister (addr : Addr)
  /-- `BNNN` (R104). -/
  | jumpWithOffset (addr : Addr)
  /-- `CXNN` (R131). -/
  | random (x : Reg) (nn : Byte)
  /-- `DXYN` (R152). -/
  | draw (x y : Reg) (n : Nibble)
  /-- `EX9E` (R114). -/
  | skipIfKey (x : Reg)
  /-- `EXA1` (R115). -/
  | skipIfNotKey (x : Reg)
  /-- `FX07` (R160). -/
  | getDelay (x : Reg)
  /-- `FX0A` (R163). -/
  | blockingGetKey (x : Reg)
  /-- `FX15` (R161). -/
  | setDelay (x : Reg)
  /-- `FX18` (R162). -/
  | setSound (x : Reg)
  /-- `FX1E` (R141). -/
  | addToAddressRegister (x : Reg)
  /-- `FX29` (R142). -/
  | setAddressRegisterToSpriteFor (x : Reg)
  /-- `FX33` (R143). -/
  | storeBCD (x : Reg)
  /-- `FX55` (R144). -/
  | registerDump (x : Reg)
  /-- `FX65` (R145). -/
  | registerLoad (x : Reg)
  deriving DecidableEq, Repr

end Sys2Proof
end

