-- ==== Sys2Proof/WellFormed.lean ====
section
/-! DEFINITION. Which instructions have a word. Register ids, constants and addresses are bounded by their types (R63); the one check
left is the "else" of group 0x0 (30_encoding.md R67). -/

namespace Sys2Proof

/-- R67: MachineCodeCall has group 0x0 less the words whose low byte is 0x0E (ClearScreen) or 0xEE (ReturnFromSub). Every other
operand of R63 is admitted at every value of its type. Log 14. -/
def Instr.wf : Instr → Bool
  | .machineCodeCall addr => addr.extractLsb' 0 8 != 0x0E#8 && addr.extractLsb' 0 8 != 0xEE#8
  | .clearScreen | .returnFromSub => true
  | .jump _ | .callSub _ | .setAddressRegister _ | .jumpWithOffset _ => true
  | .skipIfEqualConst _ _ | .skipIfNotEqualConst _ _ | .setConst _ _ | .addConst _ _ | .random _ _ => true
  | .skipIfRegEqual _ _ | .skipIfRegNotEqual _ _ => true
  | .set _ _ | .or _ _ | .and _ _ | .xor _ _ | .addWithCarry _ _ | .subWithBorrow _ _ => true
  | .shiftRight _ _ | .reverseSub _ _ | .shiftLeft _ _ => true
  | .draw _ _ _ => true
  | .skipIfKey _ | .skipIfNotKey _ | .getDelay _ | .blockingGetKey _ | .setDelay _ | .setSound _ => true
  | .addToAddressRegister _ | .setAddressRegisterToSpriteFor _ => true
  | .storeBCD _ | .registerDump _ | .registerLoad _ => true

end Sys2Proof
end

