-- ==== Sys2Proof/Decode.lean ====
section
/-! DEFINITION. The decoder (30_encoding.md R60 to R70), total and rejecting by name, and after it the encoder written from the same
table R66; the word numbering of spec/opcode_table.json; the textual form of R72. -/

namespace Sys2Proof

/-! ### The fields of a word (R61, R63) -/

/-- n0, the primary opcode, bits 15:12. -/
def fieldN0 (w : Word) : Nibble := w.extractLsb' 12 4

/-- X = n1 as a register id, bits 11:8. -/
def fieldX (w : Word) : Reg := (w.extractLsb' 8 4).toFin

/-- Y = n2 as a register id, bits 7:4. -/
def fieldY (w : Word) : Reg := (w.extractLsb' 4 4).toFin

/-- N = n3, bits 3:0. -/
def fieldN (w : Word) : Nibble := w.extractLsb' 0 4

/-- NN = n2n3, bits 7:0. -/
def fieldNN (w : Word) : Byte := w.extractLsb' 0 8

/-- NNN = n1n2n3, bits 11:0. -/
def fieldNNN (w : Word) : Addr := w.extractLsb' 0 12

/-! ### Decoding -/

/-- Why nothing was decoded: the Unknown words by their group, in the order of R70 (i) to (v), and a byte sequence too short for a
word (R60; the machine itself never meets that one, its fetch is bound-checked first). -/
inductive Reject where
  /-- `5XYn`, n ≠ 0. -/
  | unknown5
  /-- `8XYn`, n in 8..0xD or 0xF. -/
  | unknown8
  /-- `9XYn`, n ≠ 0. -/
  | unknown9
  /-- `EXNN`, NN not 0x9E or 0xA1. -/
  | unknownE
  /-- `FXNN`, NN not in the sub-table. -/
  | unknownF
  /-- fewer than two bytes. -/
  | truncated
  deriving DecidableEq, Repr

/-- Group 0x0 (R67): n1 takes no part; the "else" row takes the rest. -/
def decodeGroup0 (w : Word) : Instr :=
  if fieldNN w = 0x0E#8 then .clearScreen
  else if fieldNN w = 0xEE#8 then .returnFromSub
  else .machineCodeCall (fieldNNN w)

/-- Group 0x8 (R68): n3 selects. -/
def decodeGroup8 (w : Word) : Except Reject Instr :=
  if fieldN w = 0x0#4 then .ok (.set (fieldX w) (fieldY w))
  else if fieldN w = 0x1#4 then .ok (.or (fieldX w) (fieldY w))
  else if fieldN w = 0x2#4 then .ok (.and (fieldX w) (fieldY w))
  else if fieldN w = 0x3#4 then .ok (.xor (fieldX w) (fieldY w))
  else if fieldN w = 0x4#4 then .ok (.addWithCarry (fieldX w) (fieldY w))
  else if fieldN w = 0x5#4 then .ok (.subWithBorrow (fieldX w) (fieldY w))
  else if fieldN w = 0x6#4 then .ok (.shiftRight (fieldX w) (fieldY w))
  else if fieldN w = 0x7#4 then .ok (.reverseSub (fieldX w) (fieldY w))
  else if fieldN w = 0xE#4 then .ok (.shiftLeft (fieldX w) (fieldY w))
  else .error .unknown8

/-- Group 0xE (R69): the byte n2n3 selects. -/
def decodeGroupE (w : Word) : Except Reject Instr :=
  if fieldNN w = 0x9E#8 then .ok (.skipIfKey (fieldX w))
  else if fieldNN w = 0xA1#8 then .ok (.skipIfNotKey (fieldX w))
  else .error .unknownE

/-- Group 0xF (R69): the byte n2n3 selects. -/
def decodeGroupF (w : Word) : Except Reject Instr :=
  if fieldNN w = 0x07#8 then .ok (.getDelay (fieldX w))
  else if fieldNN w = 0x0A#8 then .ok (.blockingGetKey (fieldX w))
  else if fieldNN w = 0x15#8 then .ok (.setDelay (fieldX w))
  else if fieldNN w = 0x18#8 then .ok (.setSound (fieldX w))
  else if fieldNN w = 0x1E#8 then .ok (.addToAddressRegister (fieldX w))
  else if fieldNN w = 0x29#8 then .ok (.setAddressRegisterToSpriteFor (fieldX w))
  else if fieldNN w = 0x33#8 then .ok (.storeBCD (fieldX w))
  else if fieldNN w = 0x55#8 then .ok (.registerDump (fieldX w))
  else if fieldNN w = 0x65#8 then .ok (.registerLoad (fieldX w))
  else .error .unknownF

/-- `Decode(w)` (R64, R65, R66): "Dispatch primarily on n0, then further on n3 or on (n2,n3) pairs for groups 0x0, 0x8, 0xE, 0xF";
groups 0x5 and 0x9 require n3 = 0. A pure, total function of the word. -/
def decode (w : Word) : Except Reject Instr :=
  match (fieldN0 w).toNat with
  | 0x0 => .ok (decodeGroup0 w)
  | 0x1 => .ok (.jump (fieldNNN w))
  | 0x2 => .ok (.callSub (fieldNNN w))
  | 0x3 => .ok (.skipIfEqualConst (fieldX w) (fieldNN w))
  | 0x4 => .ok (.skipIfNotEqualConst (fieldX w) (fieldNN w))
  | 0x5 => if fieldN w = 0x0#4 then .ok (.skipIfRegEqual (fieldX w) (fieldY w)) else .error .unknown5
  | 0x6 => .ok (.setConst (fieldX w) (fieldNN w))
  | 0x7 => .ok (.addConst (fieldX w) (fieldNN w))
  | 0x8 => decodeGroup8 w
  | 0x9 => if fieldN w = 0x0#4 then .ok (.skipIfRegNotEqual (fieldX w) (fieldY w)) else .error .unknown9
  | 0xA => .ok (.setAddressRegister (fieldNNN w))
  | 0xB => .ok (.jumpWithOffset (fieldNNN w))
  | 0xC => .ok (.random (fieldX w) (fieldNN w))
  | 0xD => .ok (.draw (fieldX w) (fieldY w) (fieldN w))
  | 0xE => decodeGroupE w
  | _ => decodeGroupF w

/-- The word two consecutive bytes hold, the byte at the lower address high (R42). -/
def wordOfBytes (hi lo : Byte) : Word := hi ++ lo

/-- Decoding from memory bytes (R60, R61): one instruction is two bytes; the rest is given back. -/
def decodeBytes : List Byte → Except Reject (Instr × List Byte)
  | hi :: lo :: rest =>
    match decode (wordOfBytes hi lo) with
    | .ok i => .ok (i, rest)
    | .error r => .error r
  | _ => .error .truncated

/-! ### Encoding: the formats of R62 -/

/-- Format A: opcode, NNN. -/
def formA (op : Nibble) (addr : Addr) : Word := op ++ addr

/-- Formats RC and R: opcode, X, then the byte NN or the sub-opcode. -/
def formRC (op : Nibble) (x : Reg) (nn : Byte) : Word := (op ++ (BitVec.ofFin x : Nibble) : BitVec 8) ++ nn

/-- Formats RR and RRN: opcode, X, Y, then the sub-opcode or N. -/
def formRR (op : Nibble) (x y : Reg) (n : Nibble) : Word :=
  (op ++ (BitVec.ofFin x : Nibble) : BitVec 8) ++ ((BitVec.ofFin y : Nibble) ++ n : BitVec 8)

/-- The word of an instruction, from table R66; the ignored nibble n1 of format Z is written as 0 (R72). -/
def encode : Instr → Word
  | .clearScreen => formRC 0x0 0 0x0E
  | .returnFromSub => formRC 0x0 0 0xEE
  | .machineCodeCall addr => formA 0x0 addr
  | .jump addr => formA 0x1 addr
  | .callSub addr => formA 0x2 addr
  | .skipIfEqualConst x nn => formRC 0x3 x nn
  | .skipIfNotEqualConst x nn => formRC 0x4 x nn
  | .skipIfRegEqual x y => formRR 0x5 x y 0x0
  | .setConst x nn => formRC 0x6 x nn
  | .addConst x nn => formRC 0x7 x nn
  | .set x y => formRR 0x8 x y 0x0
  | .or x y => formRR 0x8 x y 0x1
  | .and x y => formRR 0x8 x y 0x2
  | .xor x y => formRR 0x8 x y 0x3
  | .addWithCarry x y => formRR 0x8 x y 0x4
  | .subWithBorrow x y => formRR 0x8 x y 0x5
  | .shiftRight x y => formRR 0x8 x y 0x6
  | .reverseSub x y => formRR 0x8 x y 0x7
  | .shiftLeft x y => formRR 0x8 x y 0xE
  | .skipIfRegNotEqual x y => formRR 0x9 x y 0x0
  | .setAddressRegister addr => formA 0xA addr
  | .jumpWithOffset addr => formA 0xB addr
  | .random x nn => formRC 0xC x nn
  | .draw x y n => formRR 0xD x y n
  | .skipIfKey x => formRC 0xE x 0x9E
  | .skipIfNotKey x => formRC 0xE x 0xA1
  | .getDelay x => formRC 0xF x 0x07
  | .blockingGetKey x => formRC 0xF x 0x0A
  | .setDelay x => formRC 0xF x 0x15
  | .setSound x => formRC 0xF x 0x18
  | .addToAddressRegister x => formRC 0xF x 0x1E
  | .setAddressRegisterToSpriteFor x => formRC 0xF x 0x29
  | .storeBCD x => formRC 0xF x 0x33
  | .registerDump x => formRC 0xF x 0x55
  | .registerLoad x => formRC 0xF x 0x65

/-- The byte of a word at the lower address (R42): the high byte. -/
def hiByte (w : Word) : Byte := w.extractLsb' 8 8

/-- The byte of a word at the higher address (R42): the low byte. -/
def loByte (w : Word) : Byte := w.extractLsb' 0 8

/-- A word as memory holds it (R42). -/
def bytesOfWord (w : Word) : List Byte := [hiByte w, loByte w]

/-- An instruction as memory holds it. -/
def encodeBytes (i : Instr) : List Byte := bytesOfWord (encode i)

/-! ### The numbering of spec/opcode_table.json -/

/-- The first instruction word of `w`, of which the table gives `nbits` bits (the bits above are 0). Every instruction is one 16-bit
word (R60), so bit k of the number is bit k of the word. Log 15. -/
def tableWord (nbits w : Nat) : Word := BitVec.ofNat 16 (w % 2 ^ nbits)

/-- The instruction the decoder reads from the bytes of that word, laid out as the hardware stores them. -/
def decodeTableWord (nbits w : Nat) : Option Instr :=
  match decodeBytes (bytesOfWord (tableWord nbits w)) with
  | .ok (i, _) => some i
  | .error _ => none

/-! ### The decode table R66 as rows, and the textual form of R72 -/

/-- The mask and match of an instruction's row of R66. -/
def Instr.row : Instr → Word × Word
  | .clearScreen => (0xF0FF, 0x000E)
  | .returnFromSub => (0xF0FF, 0x00EE)
  | .machineCodeCall _ => (0xF000, 0x0000)
  | .jump _ => (0xF000, 0x1000)
  | .callSub _ => (0xF000, 0x2000)
  | .skipIfEqualConst _ _ => (0xF000, 0x3000)
  | .skipIfNotEqualConst _ _ => (0xF000, 0x4000)
  | .skipIfRegEqual _ _ => (0xF00F, 0x5000)
  | .setConst _ _ => (0xF000, 0x6000)
  | .addConst _ _ => (0xF000, 0x7000)
  | .set _ _ => (0xF00F, 0x8000)
  | .or _ _ => (0xF00F, 0x8001)
  | .and _ _ => (0xF00F, 0x8002)
  | .xor _ _ => (0xF00F, 0x8003)
  | .addWithCarry _ _ => (0xF00F, 0x8004)
  | .subWithBorrow _ _ => (0xF00F, 0x8005)
  | .shiftRight _ _ => (0xF00F, 0x8006)
  | .reverseSub _ _ => (0xF00F, 0x8007)
  | .shiftLeft _ _ => (0xF00F, 0x800E)
  | .skipIfRegNotEqual _ _ => (0xF00F, 0x9000)
  | .setAddressRegister _ => (0xF000, 0xA000)
  | .jumpWithOffset _ => (0xF000, 0xB000)
  | .random _ _ => (0xF000, 0xC000)
  | .draw _ _ _ => (0xF000, 0xD000)
  | .skipIfKey _ => (0xF0FF, 0xE09E)
  | .skipIfNotKey _ => (0xF0FF, 0xE0A1)
  | .getDelay _ => (0xF0FF, 0xF007)
  | .blockingGetKey _ => (0xF0FF, 0xF00A)
  | .setDelay _ => (0xF0FF, 0xF015)
  | .setSound _ => (0xF0FF, 0xF018)
  | .addToAddressRegister _ => (0xF0FF, 0xF01E)
  | .setAddressRegisterToSpriteFor _ => (0xF0FF, 0xF029)
  | .storeBCD _ => (0xF0FF, 0xF033)
  | .registerDump _ => (0xF0FF, 0xF055)
  | .registerLoad _ => (0xF0FF, 0xF065)

/-- The document's tag (R66, R72), which is also the row's mnemonic in spec/opcode_table.json. -/
def Instr.tag : Instr → String
  | .clearScreen => "ClearScreen"
  | .returnFromSub => "ReturnFromSub"
  | .machineCodeCall _ => "MachineCodeCall"
  | .jump _ => "Jump"
  | .callSub _ => "CallSub"
  | .skipIfEqualConst _ _ => "SkipIfEqualConst"
  | .skipIfNotEqualConst _ _ => "SkipIfNotEqualConst"
  | .skipIfRegEqual _ _ => "SkipIfRegEqual"
  | .setConst _ _ => "SetConst"
  | .addConst _ _ => "AddConst"
  | .set _ _ => "Set"
  | .or _ _ => "Or"
  | .and _ _ => "And"
  | .xor _ _ => "Xor"
  | .addWithCarry _ _ => "AddWithCarry"
  | .subWithBorrow _ _ => "SubWithBorrow"
  | .shiftRight _ _ => "ShiftRight"
  | .reverseSub _ _ => "ReverseSub"
  | .shiftLeft _ _ => "ShiftLeft"
  | .skipIfRegNotEqual _ _ => "SkipIfRegNotEqual"
  | .setAddressRegister _ => "SetAddressRegister"
  | .jumpWithOffset _ => "JumpWithOffset"
  | .random _ _ => "Random"
  | .draw _ _ _ => "Draw"
  | .skipIfKey _ => "SkipIfKey"
  | .skipIfNotKey _ => "SkipIfNotKey"
  | .getDelay _ => "GetDelay"
  | .blockingGetKey _ => "BlockingGetKey"
  | .setDelay _ => "SetDelay"
  | .setSound _ => "SetSound"
  | .addToAddressRegister _ => "AddToAddressRegister"
  | .setAddressRegisterToSpriteFor _ => "SetAddressRegisterToSpriteFor"
  | .storeBCD _ => "StoreBCD"
  | .registerDump _ => "RegisterDump"
  | .registerLoad _ => "RegisterLoad"

/-- The operands in the order of R66, each as the number it is (R72 lets a register be written as its id). -/
def Instr.operands : Instr → List Nat
  | .clearScreen | .returnFromSub => []
  | .machineCodeCall addr | .jump addr | .callSub addr | .setAddressRegister addr | .jumpWithOffset addr => [addr.toNat]
  | .skipIfEqualConst x nn | .skipIfNotEqualConst x nn | .setConst x nn | .addConst x nn | .random x nn => [x.val, nn.toNat]
  | .skipIfRegEqual x y | .skipIfRegNotEqual x y => [x.val, y.val]
  | .set x y | .or x y | .and x y | .xor x y | .addWithCarry x y | .subWithBorrow x y => [x.val, y.val]
  | .shiftRight x y | .reverseSub x y | .shiftLeft x y => [x.val, y.val]
  | .draw x y n => [x.val, y.val, n.toNat]
  | .skipIfKey x | .skipIfNotKey x | .getDelay x | .blockingGetKey x | .setDelay x | .setSound x => [x.val]
  | .addToAddressRegister x | .setAddressRegisterToSpriteFor x => [x.val]
  | .storeBCD x | .registerDump x | .registerLoad x => [x.val]

/-- The assembly text of an instruction in the form `Tag(op1, op2, ...)` of R72, numbers in decimal. -/
def Instr.asm (i : Instr) : String :=
  match i.operands with
  | [] => i.tag
  | ops => i.tag ++ "(" ++ String.intercalate ", " (ops.map toString) ++ ")"

end Sys2Proof
end

