-- ==== Sys2Proof/Config.lean ====
section
/-! DEFINITION. What is fixed for this hardware (00_scope.md R5, R6) and the one free value of the model (43_alu.md R131). -/

namespace Sys2Proof.Config

/-- R5 MEM_SIZE: bytes of `mem`, addresses 0x000..0xFFF. -/
abbrev memSize : Nat := 4096

/-- R5 FONT_BASE..FONT_END: the 80 bytes from address 0. -/
abbrev fontSize : Nat := 80

/-- R5 PROGRAM_BASE: load address and reset value of pc. -/
abbrev programBase : Nat := 0x200

/-- R5 MAX_PROGRAM: the largest loadable program, 4096 - 0x200 bytes. -/
abbrev maxProgram : Nat := memSize - programBase

/-- R5 STACK_DEPTH. -/
abbrev stackDepth : Nat := 16

/-- R5 FB_WIDTH. -/
abbrev fbWidth : Nat := 64

/-- R5 FB_HEIGHT. -/
abbrev fbHeight : Nat := 32

/-- The two settings of R6 (b). -/
inductive ShiftSource where
  | vx
  | vy
  deriving DecidableEq, Repr

/-- R6 (b) SHIFT_SOURCE: "the value this hardware takes is VY" (R128, R130). Log 11. -/
def shiftSource : ShiftSource := .vy

/-- R6 (c) CYCLES_PER_TIMER_TICK: "the value this hardware takes is 1 and no rule reads the parameter". Log 12. -/
def cyclesPerTimerTick : Nat := 1

/-- FREE VALUE (R131, D13): the byte on the random port at the n-th draw, "a free draw, ... under no law". It has no body, so
nothing can be proved of it. DESIGN CHOICE, log 2. -/
opaque rnd : Nat → Byte

end Sys2Proof.Config
end

