-- ==== Sys2Proof/Machine/State.lean ====
section
/-! DEFINITION. The state of the block (10_state.md R10), the reasons a step stops (60_exceptions.md R170 to R174) and the state after
Reset (R30). -/

namespace Sys2Proof.Machine

/-- The kind of an out-of-bounds fault (R172, D21). -/
inductive OobKind where
  /-- pc + 1 >= 4096 (R81). -/
  | fetch
  /-- Draw with N > 0 and I + N > 4096 (R152); RegisterLoad with I + X + 1 > 4096 (R145). -/
  | memRead
  /-- StoreBCD with I + 3 > 4096 (R143); RegisterDump with I + X + 1 > 4096 (R144). -/
  | memWrite
  /-- CallSub at SP = 16 (R102). -/
  | stackOverflow
  /-- ReturnFromSub at SP = 0 (R103). -/
  | stackUnderflow
  /-- SkipIfKey or SkipIfNotKey with V[X] > 15 (R114, R115). -/
  | keyIndex
  deriving DecidableEq, Repr

/-- The `Fault(reason)` of a step (R170): "a closed enumeration {UnknownOpcode(word, pc), OutOfBounds(kind)}" (R174). -/
inductive Fault where
  /-- Raised by `step` in phase 2 for a word that decodes to Unknown, with the word and the pc it was fetched from (R171).
  Safe: it is the outcome the spec gives. -/
  | unknownOpcode (word : Word) (pc : Word)
  /-- Raised by the fetch of `step` and by CallSub, ReturnFromSub, SkipIfKey, SkipIfNotKey, StoreBCD, RegisterDump, RegisterLoad and
  Draw in the cases of R172. Safe: it is the outcome the spec gives. -/
  | outOfBounds (kind : OobKind)
  deriving DecidableEq, Repr

/-- An instruction without a meaning. No arm of `exec` answers it. -/
inductive Refusal where
  /-- Raised by an arm of `exec` that has no meaning yet; there is none. Safe. -/
  | notModelled (mnemonic : String)
  deriving DecidableEq, Repr

/-- The two normal outcomes of a step (R89, R170). -/
inductive CycleOutcome where
  /-- `Continue`. -/
  | cont
  /-- `Beeped`. -/
  | beeped
  deriving DecidableEq, Repr

/-- The contents of `mem` (R22, R40) as the cells that differ from the reset contents, addresses strictly rising. Log 4. -/
abbrev Memory := List Host.Cell

/-- The framebuffer (R20): 32 rows of 64 cells; bit x of row y is cell (x, y). Log 5. -/
abbrev Framebuffer := Vector (BitVec 64) 32

/-- MachineState (R10), and the model's own two fields `outcome` and `draws`. -/
structure State where
  /-- 4096 bytes (R22). -/
  mem : Memory
  /-- V[0x0]..V[0xF] (R11, R12). -/
  v : Vector Byte 16
  /-- The address register I (R13). -/
  i : Word
  /-- The program counter (R15). -/
  pc : Word
  /-- STACK[0]..STACK[15] (R17). -/
  stack : Vector Word 16
  /-- SP, 0..16 (R5, R17). -/
  sp : Fin 17
  /-- The delay timer (R19). -/
  dt : Byte
  /-- The sound timer (R19). -/
  st : Byte
  /-- The framebuffer (R20). -/
  fb : Framebuffer
  /-- KEY[0]..KEY[15] (R21). -/
  keys : Vector Bool 16
  /-- The model's own: the outcome the last completed step returned (R80, R89). DESIGN CHOICE, log 1. -/
  outcome : CycleOutcome
  /-- The model's own: how many random bytes have been taken (R131). DESIGN CHOICE, log 2. -/
  draws : Nat
  deriving DecidableEq, Repr

/-- The state after Reset (R30, R190): every element zero but pc = 0x200 and the font, which memory reads where nothing is listed. -/
def State.reset : State where
  mem := []
  v := Vector.replicate 16 0x00#8
  i := 0x0000#16
  pc := 0x0200#16
  stack := Vector.replicate 16 0x0000#16
  sp := 0
  dt := 0x00#8
  st := 0x00#8
  fb := Vector.replicate 32 0#64
  keys := Vector.replicate 16 false
  outcome := .cont
  draws := 0

end Sys2Proof.Machine
end

