-- ==== Sys2Proof/Machine/Memory.lean ====
section
/-! DEFINITION. The 4096 bytes of memory (20_memory.md R40 to R49) over the canonical cell list: what an unlisted address reads as,
reading and writing bytes, and the form `Memory.wf` every write keeps. -/

namespace Sys2Proof.Machine

/-- The parameter FONT (R6 a): 16 glyphs of 5 bytes, '0' to 'F' in order, at R31's default. PRESUMED (the spec marks the bytes general
knowledge), unsafe, log 3. -/
def fontTable : Vector Byte Config.fontSize :=
  #v[ 0xF0, 0x90, 0x90, 0x90, 0xF0,
      0x20, 0x60, 0x20, 0x20, 0x70,
      0xF0, 0x10, 0xF0, 0x80, 0xF0,
      0xF0, 0x10, 0xF0, 0x10, 0xF0,
      0x90, 0x90, 0xF0, 0x10, 0x10,
      0xF0, 0x80, 0xF0, 0x10, 0xF0,
      0xF0, 0x80, 0xF0, 0x90, 0xF0,
      0xF0, 0x10, 0x20, 0x40, 0x40,
      0xF0, 0x90, 0xF0, 0x90, 0xF0,
      0xF0, 0x90, 0xF0, 0x10, 0xF0,
      0xF0, 0x90, 0xF0, 0x90, 0x90,
      0xE0, 0x90, 0xE0, 0x90, 0xE0,
      0xF0, 0x80, 0x80, 0x80, 0xF0,
      0xE0, 0x90, 0x90, 0x90, 0xE0,
      0xF0, 0x80, 0xF0, 0x80, 0xF0,
      0xF0, 0x80, 0xF0, 0x80, 0x80 ]

/-- What an unlisted address reads as: the reset contents (R30), FONT at 0x000..0x04F and 0x00 above. Log 4. -/
def unlisted (a : Nat) : Byte := fontTable.toList.getD a 0x00#8

/-- `mem[a]`. Every access of the machine is bound-checked first (R44), so `a` is below 4096 wherever a rule reads. -/
def Memory.readByte : Memory → Nat → Byte
  | [], a => unlisted a
  | (k, b) :: rest, a => if k = a then b else Memory.readByte rest a

/-- Take the entry of an address out. -/
def Memory.eraseCell (m : Memory) (a : Nat) : Memory := m.filter (fun c => c.1 != a)

/-- Put an entry before the first entry of a higher address. -/
def Memory.insertCell : Memory → Nat → Byte → Memory
  | [], a, b => [(a, b)]
  | (k, c) :: rest, a, b => if a < k then (a, b) :: (k, c) :: rest else (k, c) :: Memory.insertCell rest a b

/-- `mem[a] <- b`, in canonical form: the value an unlisted address reads as is not listed. -/
def Memory.writeByte (m : Memory) (a : Nat) (b : Byte) : Memory :=
  if b = unlisted a then m.eraseCell a else (m.eraseCell a).insertCell a b

/-- The bytes at `a, a+1, .., a+n-1` (R43, R45). -/
def Memory.readBytes (m : Memory) (a : Nat) : Nat → List Byte
  | 0 => []
  | n + 1 => m.readByte a :: Memory.readBytes m (a + 1) n

/-- Store the bytes at `a, a+1, ..` in ascending order (R43, R45). -/
def Memory.writeBytes (m : Memory) (a : Nat) : List Byte → Memory
  | [] => m
  | b :: bs => Memory.writeBytes (m.writeByte a b) (a + 1) bs

/-- The canonical form: addresses strictly rising and below 4096, no entry equal to what an unlisted address reads as. Log 4. -/
abbrev Memory.wf (m : Memory) : Prop :=
  m.Pairwise (fun c d => c.1 < d.1) ∧ ∀ c ∈ m, c.1 < Config.memSize ∧ c.2 ≠ unlisted c.1

end Sys2Proof.Machine
end

