-- ==== Sys2Proof/Machine/Ops.lean ====
section
/-! DEFINITION. The named operations the meanings are written over: one accessor and one update per element of the state
(00_scope.md R8), the bound-checked memory primitives (20_memory.md R44, R45), raising a fault (60_exceptions.md R170 to R177), the pc
rule (40_step_cycle.md R85), the call stack (10_state.md R17), and the timer tick (R88, R89). -/

namespace Sys2Proof.Machine

/-- What a step and a meaning answer. -/
abbrev Result := Host.Outcome State Fault Refusal

/-! ### Reading and updating the elements of the state (R8) -/

/-- `V[x]`. -/
def State.reg (s : State) (x : Reg) : Byte := s.v[x.val]

/-- `V[x] <- b`; no register is hardwired (R11). -/
def State.setReg (s : State) (x : Reg) (b : Byte) : State := { s with v := s.v.set x.val b }

/-- `I <- w`. -/
def State.setI (s : State) (w : Word) : State := { s with i := w }

/-- `pc <- w`. -/
def State.setPc (s : State) (w : Word) : State := { s with pc := w }

/-- Replace the contents of memory. -/
def State.setMem (s : State) (m : Memory) : State := { s with mem := m }

/-- `STACK[k]`. -/
def State.slot (s : State) (k : Fin 16) : Word := s.stack[k.val]

/-- `STACK[k] <- w`. -/
def State.setSlot (s : State) (k : Fin 16) (w : Word) : State := { s with stack := s.stack.set k.val w }

/-- `SP <- n`. -/
def State.setSp (s : State) (n : Fin 17) : State := { s with sp := n }

/-- `DT <- b`. -/
def State.setDt (s : State) (b : Byte) : State := { s with dt := b }

/-- `ST <- b`. -/
def State.setSt (s : State) (b : Byte) : State := { s with st := b }

/-- Replace the framebuffer. -/
def State.setFb (s : State) (fb : Framebuffer) : State := { s with fb := fb }

/-- Replace all 16 keypad flags. -/
def State.setKeyFlags (s : State) (keys : Vector Bool 16) : State := { s with keys := keys }

/-- Record the outcome a step returns. -/
def State.setOutcome (s : State) (o : CycleOutcome) : State := { s with outcome := o }

/-- Count one random byte as taken. -/
def State.countDraw (s : State) : State := { s with draws := s.draws + 1 }

/-- `KEY[k]`. -/
def State.keyHeld (s : State) (k : Reg) : Bool := s.keys[k.val]

/-- `mem[a]`. -/
def State.byteAt (s : State) (a : Nat) : Byte := s.mem.readByte a

/-- `FB[x, y]` of a framebuffer, 0 <= x <= 63 and 0 <= y <= 31; outside the grid there is no cell and the answer is false. -/
def Framebuffer.cell (fb : Framebuffer) (x y : Nat) : Bool := if h : y < 32 then fb[y].getLsbD x else false

/-- `FB[x, y] <- FB[x, y] xor 1`. -/
def Framebuffer.toggle (fb : Framebuffer) (x y : Nat) : Framebuffer :=
  if h : y < 32 then fb.set y (fb[y] ^^^ BitVec.twoPow 64 x) else fb

/-- Every cell false (R150). -/
def Framebuffer.clear : Framebuffer := Vector.replicate 32 0#64

/-- `FB[x, y]`. -/
def State.cell (s : State) (x y : Nat) : Bool := Framebuffer.cell s.fb x y

/-- I as an unbounded address (R146). -/
def State.base (s : State) : Nat := s.i.toNat

/-! ### Faults (R87, R170 to R177) -/

/-- `raise Fault(reason)` (R8, R177): the step ends and its outcome is the fault. There is no handler, vector or saved register
(R177) and no return from trap (R178); the state is the one the step started from (R173), so none is answered. Log 6. -/
def raise (f : Fault) : Result := .fault f

/-- `Fault(OutOfBounds)` with its kind (R172). -/
def raiseOob (k : OobKind) : Result := raise (.outOfBounds k)

/-! ### Memory primitives (R44, R45) -/

/-- `MemRead(addr, n)` as the list of its bytes, the most significant first: the whole range is checked on unbounded integers. -/
def memRead (k : OobKind) (s : State) (addr n : Nat) : Except OobKind (List Byte) :=
  if addr + n > Config.memSize then .error k else .ok (s.mem.readBytes addr n)

/-- `MemWrite(addr, n, v)` for the n bytes of v, the most significant first: the whole range is checked before the first byte is
stored. -/
def memWrite (k : OobKind) (s : State) (addr : Nat) (bs : List Byte) : Except OobKind State :=
  if addr + bs.length > Config.memSize then .error k else .ok (s.setMem (s.mem.writeBytes addr bs))

/-- Phase 1 (R81): the word `mem[pc] ++ mem[pc+1]`, first byte high (R42); a fault when pc + 1 >= 4096, whatever the parity of pc
(R46). -/
def fetch (s : State) : Except OobKind Word :=
  match memRead .fetch s s.pc.toNat 2 with
  | .error k => .error k
  | .ok bs => .ok (bs.getD 0 0x00#8 ++ bs.getD 1 0x00#8)

/-! ### The program counter (R82, R85) -/

/-- `pc <- pc + 2`, the sequential class. -/
def State.advance (s : State) : State := s.setPc (s.pc + 2)

/-- `pc <- pc + 4` if the condition holds, else `pc <- pc + 2`, the skip class. -/
def State.skipIf (s : State) (c : Bool) : State := s.setPc (if c then s.pc + 4 else s.pc + 2)

/-- A completed sequential instruction. -/
def done (s : State) : Result := .next s.advance

/-! ### The call stack (R17) -/

/-- Push: `STACK[SP] <- w`, then SP + 1; overflow at SP = 16. -/
def push (w : Word) (s : State) : Except OobKind State :=
  if h : s.sp.val < 16 then .ok ((s.setSlot ⟨s.sp.val, h⟩ w).setSp ⟨s.sp.val + 1, by omega⟩) else .error .stackOverflow

/-- Pop: SP - 1, then read `STACK[SP]`, whose content stays in place (D26); underflow at SP = 0. -/
def pop (s : State) : Except OobKind (Word × State) :=
  if h : 0 < s.sp.val then
    .ok (s.slot ⟨s.sp.val - 1, by omega⟩, s.setSp ⟨s.sp.val - 1, by omega⟩)
  else .error .stackUnderflow

/-! ### The random byte (R131) -/

/-- Take the byte on the random port: the free value, and the state in which it is taken. Log 2. -/
def takeRandom (s : State) : Byte × State := (Config.rnd s.draws, s.countDraw)

/-! ### The timer tick (R88, R89) -/

/-- One count down, "clamped at 0 (never wrap negative)" (R19). -/
def countDown (b : Byte) : Byte := if b = 0 then 0 else b - 1

/-- Phase 4 (R80, R88, R89): both timers count down, and the outcome is Beeped iff ST was 1 after phase 3. -/
def tick (s : State) : State :=
  ((s.setDt (countDown s.dt)).setSt (countDown s.st)).setOutcome (if s.st = 1 then .beeped else .cont)

/-- Phase 4 after phase 3: it runs when the instruction completed, not when it faulted (R87). -/
def tickAfter : Result → Result
  | .next s => .next (tick s)
  | .fault f => .fault f
  | .refused r => .refused r

/-! ### The registers as a list, for RegisterDump and RegisterLoad -/

/-- The register ids 0..15 in order. -/
def allRegs : List Reg := [0, 1, 2, 3, 4, 5, 6, 7, 8, 9, 10, 11, 12, 13, 14, 15]

/-- The register ids 0..x inclusive. -/
def regsUpTo (x : Reg) : List Reg := allRegs.take (x.val + 1)

/-- `V[k] <- b` for each register and byte in turn. -/
def State.setRegs : State → List Reg → List Byte → State
  | s, k :: ks, b :: bs => State.setRegs (s.setReg k b) ks bs
  | s, _, _ => s

end Sys2Proof.Machine
end

