-- ==== Sys2Proof/Machine/Flags.lean ====
section
/-! DEFINITION. The flag computations: what the six flag-setting instructions write to V[0xF] (10_state.md R12), and the order of the
two writes (40_step_cycle.md R86). -/

namespace Sys2Proof.Machine

/-- The flag register V[0xF]. -/
abbrev flagReg : Reg := 15

/-- A flag as a register value: exactly 0x00 or 0x01 (R12, D30). -/
def flagByte (c : Bool) : Byte := if c then 0x01#8 else 0x00#8

/-- Carry out of an 8-bit addition: the mathematical sum is 256 or more (R126). -/
def carryOut (a b : Byte) : Bool := decide (256 ≤ a.toNat + b.toNat)

/-- No borrow in `a - b`: a >= b (R127; R129 with the operands exchanged). -/
def noBorrow (a b : Byte) : Bool := decide (b.toNat ≤ a.toNat)

/-- The bit a right shift by one shifts out (R128). -/
def shiftedOutRight (b : Byte) : Bool := b.getLsbD 0

/-- The bit a left shift by one shifts out (R130). -/
def shiftedOutLeft (b : Byte) : Bool := b.getLsbD 7

/-- Write the flag (R12). -/
def State.setFlag (s : State) (c : Bool) : State := s.setReg flagReg (flagByte c)

/-- "The result is written first and the flag last" (R86): with X = 0xF the register ends holding the flag. -/
def State.setResultAndFlag (s : State) (x : Reg) (result : Byte) (c : Bool) : State := (s.setReg x result).setFlag c

end Sys2Proof.Machine
end

