-- ==== Sys2Proof/Machine/Operands.lean ====
section
/-! DEFINITION. The operand forms of the instructions: how an operand of the word and the state give the value an instruction works
on (30_encoding.md R63, 00_scope.md R9). All reads are of the state at the start of the step (40_step_cycle.md R86). -/

namespace Sys2Proof.Machine

/-- `zext_16(NNN)`: an address operand as pc or I (R63). -/
def addrWord (addr : Addr) : Word := addr.setWidth 16

/-- `zext_16(b)` (R104, R141, R142). -/
def byteWord (b : Byte) : Word := b.setWidth 16

/-- The target of JumpWithOffset: `zext_16(NNN) + zext_16(V[0])`, not reduced modulo 4096 (R104; V[0] is D10's choice, log 13). -/
def offsetTarget (s : State) (addr : Addr) : Word := addrWord addr + byteWord (s.reg 0)

/-- The value CallSub pushes: pc + 2 (R102). -/
def returnAddress (s : State) : Word := s.pc + 2

/-- The source of the shifts (R128, R130): V[Y], by the configuration point SHIFT_SOURCE (R6 b). Log 11. -/
def shiftSource (s : State) (x y : Reg) : Byte :=
  match Config.shiftSource with
  | .vx => s.reg x
  | .vy => s.reg y

/-- `(I + zext_16(V[X])) mod 4096` (R141). -/
def addressPlus (s : State) (x : Reg) : Word := BitVec.ofNat 16 ((s.i.toNat + (s.reg x).toNat) % 4096)

/-- `zext_16(V[X]) * 5`, the register's value and not its id, unmasked (R142). -/
def spriteAddress (s : State) (x : Reg) : Word := BitVec.ofNat 16 ((s.reg x).toNat * 5)

/-- The hundreds, tens and units digits of a byte, one a byte (R143). -/
def bcdDigits (b : Byte) : List Byte :=
  [BitVec.ofNat 8 (b.toNat / 100), BitVec.ofNat 8 (b.toNat / 10 % 10), BitVec.ofNat 8 (b.toNat % 10)]

/-- The bytes RegisterDump stores: V[0]..V[X] (R144). -/
def dumpBytes (s : State) (x : Reg) : List Byte := (regsUpTo x).map s.reg

/-- The key V[X] names; none when V[X] > 15 (R114, D12). -/
def keyIndex (s : State) (x : Reg) : Option Reg :=
  if h : (s.reg x).toNat < 16 then some ⟨(s.reg x).toNat, h⟩ else none

/-- The least key held, none when no key is held (R163). -/
def lowestKey (s : State) : Option Reg := allRegs.find? s.keyHeld

/-- A key number as a register value: `zext_8(k)` (R163). -/
def keyByte (k : Reg) : Byte := BitVec.ofNat 8 k.val

/-! ### The sprite datapath of Draw (R151, R152) -/

/-- What Draw carries while it scans: the framebuffer and the collision so far. -/
abbrev Scan := Framebuffer × Bool

/-- One sprite pixel that is 1, at column px and row py: drawn when inside the grid, clipped otherwise (D7). -/
def drawPixel (px py : Nat) (d : Scan) : Scan :=
  if px ≤ 63 ∧ py ≤ 31 then (Framebuffer.toggle d.1 px py, d.2 || Framebuffer.cell d.1 px py) else d

/-- Columns c, c+1, .., 7 of a sprite row: bit 7 - c is the pixel at column offset c. -/
def drawColumns (x0 py : Nat) (b : Byte) : List Nat → Scan → Scan
  | [], d => d
  | c :: cs, d => drawColumns x0 py b cs (if b.getLsbD (7 - c) then drawPixel (x0 + c) py d else d)

/-- One sprite row, columns 0..7. -/
def drawRow (x0 py : Nat) (b : Byte) (d : Scan) : Scan := drawColumns x0 py b [0, 1, 2, 3, 4, 5, 6, 7] d

/-- The rows of a sprite from row py down. -/
def drawRows (x0 : Nat) : Nat → List Byte → Scan → Scan
  | _, [], d => d
  | py, b :: bs, d => drawRows x0 (py + 1) bs (drawRow x0 py b d)

end Sys2Proof.Machine
end

