-- ==== Sys2Proof/Machine/Alu.lean ====
section
/-! DEFINITION. Constants, moves, logic, arithmetic, shifts and Random (43_alu.md). All are sequential and raise no fault. -/

namespace Sys2Proof.Machine

/-- R120: `V[X] <- NN`. -/
def execSetConst (x : Reg) (nn : Byte) (s : State) : Result := done (s.setReg x nn)

/-- R121: `V[X] <- (V[X] + NN) mod 256`; no flag. -/
def execAddConst (x : Reg) (nn : Byte) (s : State) : Result := done (s.setReg x (s.reg x + nn))

/-- R122: `V[X] <- V[Y]`. -/
def execSet (x y : Reg) (s : State) : Result := done (s.setReg x (s.reg y))

/-- R123: `V[X] <- V[X] | V[Y]`; no flag. -/
def execOr (x y : Reg) (s : State) : Result := done (s.setReg x (s.reg x ||| s.reg y))

/-- R124: `V[X] <- V[X] & V[Y]`; no flag. -/
def execAnd (x y : Reg) (s : State) : Result := done (s.setReg x (s.reg x &&& s.reg y))

/-- R125: `V[X] <- V[X] ^ V[Y]`; no flag. -/
def execXor (x y : Reg) (s : State) : Result := done (s.setReg x (s.reg x ^^^ s.reg y))

/-- R126: `V[X] <- (V[X] + V[Y]) mod 256`, `V[0xF]` = carry out. -/
def execAddWithCarry (x y : Reg) (s : State) : Result :=
  done (s.setResultAndFlag x (s.reg x + s.reg y) (carryOut (s.reg x) (s.reg y)))

/-- R127: `V[X] <- (V[X] - V[Y]) mod 256`, `V[0xF]` = no borrow. -/
def execSubWithBorrow (x y : Reg) (s : State) : Result :=
  done (s.setResultAndFlag x (s.reg x - s.reg y) (noBorrow (s.reg x) (s.reg y)))

/-- R128: `V[X]` = the source shifted right by one, logical; `V[0xF]` = its bit 0. -/
def execShiftRight (x y : Reg) (s : State) : Result :=
  done (s.setResultAndFlag x (shiftSource s x y >>> 1) (shiftedOutRight (shiftSource s x y)))

/-- R129: `V[X] <- (V[Y] - V[X]) mod 256`, `V[0xF]` = no borrow. -/
def execReverseSub (x y : Reg) (s : State) : Result :=
  done (s.setResultAndFlag x (s.reg y - s.reg x) (noBorrow (s.reg y) (s.reg x)))

/-- R130: `V[X]` = the source times 2 mod 256; `V[0xF]` = its bit 7. -/
def execShiftLeft (x y : Reg) (s : State) : Result :=
  done (s.setResultAndFlag x (shiftSource s x y <<< 1) (shiftedOutLeft (shiftSource s x y)))

/-- R131 for a given byte on the random port: `V[X] <- rnd & NN`. -/
def setMasked (x : Reg) (nn rnd : Byte) (s : State) : Result := done (s.setReg x (rnd &&& nn))

/-- R131 with the port's byte, a free value. Log 2. -/
def execRandom (x : Reg) (nn : Byte) (s : State) : Result := setMasked x nn (takeRandom s).1 (takeRandom s).2

end Sys2Proof.Machine
end

