-- ==== Sys2Proof/Machine/Display.lean ====
section
/-! DEFINITION. The display instructions (45_display.md). -/

namespace Sys2Proof.Machine

/-- R150: every cell false; V[0xF] is not written. -/
def execClearScreen (s : State) : Result := done (s.setFb Framebuffer.clear)

/-- The sprite bytes of Draw (R152): "N > 0 and I + N > 4096" is the fault; N = 0 reads nothing and never faults (R153 a). -/
def spriteRows (s : State) (n : Nibble) : Except OobKind (List Byte) :=
  if n = 0#4 then .ok [] else memRead .memRead s s.base n.toNat

/-- The whole scan of Draw from the origin (V[X], V[Y]) (R151, R152). -/
def drawSprite (s : State) (x y : Reg) (rows : List Byte) : Scan :=
  drawRows (s.reg x).toNat (s.reg y).toNat rows (s.fb, false)

/-- R152: XOR the sprite onto the framebuffer, clipped at the edges; V[0xF] = collision. -/
def execDraw (x y : Reg) (n : Nibble) (s : State) : Result :=
  match spriteRows s n with
  | .ok rows => done ((s.setFb (drawSprite s x y rows).1).setFlag (drawSprite s x y rows).2)
  | .error k => raiseOob k

end Sys2Proof.Machine
end

