-- ==== Sys2Proof/Machine/Flow.lean ====
section
/-! DEFINITION. Control transfer (41_flow.md): MachineCodeCall, Jump, CallSub, ReturnFromSub, JumpWithOffset. -/

namespace Sys2Proof.Machine

/-- R100: no effect but the pc's advance; the operand is ignored. -/
def execMachineCodeCall (_addr : Addr) (s : State) : Result := done s

/-- R101: `pc <- zext_16(NNN)`. -/
def execJump (addr : Addr) (s : State) : Result := .next (s.setPc (addrWord addr))

/-- R102: push pc + 2, then jump; StackOverflow at SP = 16. -/
def execCallSub (addr : Addr) (s : State) : Result :=
  match push (returnAddress s) s with
  | .ok t => .next (t.setPc (addrWord addr))
  | .error k => raiseOob k

/-- R103: pop into pc; StackUnderflow at SP = 0. -/
def execReturnFromSub (s : State) : Result :=
  match pop s with
  | .ok (w, t) => .next (t.setPc w)
  | .error k => raiseOob k

/-- R104: `pc <- zext_16(NNN) + zext_16(V[0])`. -/
def execJumpWithOffset (addr : Addr) (s : State) : Result := .next (s.setPc (offsetTarget s addr))

end Sys2Proof.Machine
end

