-- ==== Sys2Proof/Machine/Index.lean ====
section
/-! DEFINITION. The address register and the memory instructions (44_index_memory.md). I is written by the first three only. -/

namespace Sys2Proof.Machine

/-- R140: `I <- zext_16(NNN)`. -/
def execSetAddressRegister (addr : Addr) (s : State) : Result := done (s.setI (addrWord addr))

/-- R141: `I <- (I + zext_16(V[X])) mod 4096`; no flag. -/
def execAddToAddressRegister (x : Reg) (s : State) : Result := done (s.setI (addressPlus s x))

/-- R142: `I <- zext_16(V[X]) * 5`. -/
def execSetAddressRegisterToSpriteFor (x : Reg) (s : State) : Result := done (s.setI (spriteAddress s x))

/-- R143: the three digits of V[X] at I, I+1, I+2; MemWrite when I + 3 > 4096. -/
def execStoreBCD (x : Reg) (s : State) : Result :=
  match memWrite .memWrite s s.base (bcdDigits (s.reg x)) with
  | .ok t => done t
  | .error k => raiseOob k

/-- R144: V[0]..V[X] at I..I+X; MemWrite when I + X + 1 > 4096. -/
def execRegisterDump (x : Reg) (s : State) : Result :=
  match memWrite .memWrite s s.base (dumpBytes s x) with
  | .ok t => done t
  | .error k => raiseOob k

/-- R145: V[0]..V[X] from I..I+X; MemRead when I + X + 1 > 4096. -/
def execRegisterLoad (x : Reg) (s : State) : Result :=
  match memRead .memRead s s.base (x.val + 1) with
  | .ok bs => done (s.setRegs (regsUpTo x) bs)
  | .error k => raiseOob k

end Sys2Proof.Machine
end

