-- ==== Sys2Proof/Machine/Skip.lean ====
section
/-! DEFINITION. Conditional skips (42_skip.md). -/

namespace Sys2Proof.Machine

/-- R110: skip if V[X] = NN. -/
def execSkipIfEqualConst (x : Reg) (nn : Byte) (s : State) : Result := .next (s.skipIf (s.reg x == nn))

/-- R111: skip if V[X] ≠ NN. -/
def execSkipIfNotEqualConst (x : Reg) (nn : Byte) (s : State) : Result := .next (s.skipIf (s.reg x != nn))

/-- R112: skip if V[X] = V[Y]. -/
def execSkipIfRegEqual (x y : Reg) (s : State) : Result := .next (s.skipIf (s.reg x == s.reg y))

/-- R113: skip if V[X] ≠ V[Y]. -/
def execSkipIfRegNotEqual (x y : Reg) (s : State) : Result := .next (s.skipIf (s.reg x != s.reg y))

/-- R114, R115: skip on a condition of the flag of key V[X]; KeyIndex when V[X] > 15. -/
def skipOnKey (cond : Bool → Bool) (x : Reg) (s : State) : Result :=
  match keyIndex s x with
  | some k => .next (s.skipIf (cond (s.keyHeld k)))
  | none => raiseOob .keyIndex

/-- R114: skip if the key is held. -/
def execSkipIfKey (x : Reg) (s : State) : Result := skipOnKey (fun held => held) x s

/-- R115: skip if the key is not held. -/
def execSkipIfNotKey (x : Reg) (s : State) : Result := skipOnKey (fun held => !held) x s

end Sys2Proof.Machine
end

