-- ==== Sys2Proof/Machine/TimerKey.lean ====
section
/-! DEFINITION. The timer and key-wait instructions (46_timer_key.md). The tick of the same step comes after them (R88). -/

namespace Sys2Proof.Machine

/-- R160: `V[X] <- DT`, the value before this step's tick. -/
def execGetDelay (x : Reg) (s : State) : Result := done (s.setReg x s.dt)

/-- R161: `DT <- V[X]`. -/
def execSetDelay (x : Reg) (s : State) : Result := done (s.setDt (s.reg x))

/-- R162: `ST <- V[X]`. -/
def execSetSound (x : Reg) (s : State) : Result := done (s.setSt (s.reg x))

/-- R163: with no key held a wait step, which changes nothing (pc neither); else `V[X]` = the least key held. -/
def execBlockingGetKey (x : Reg) (s : State) : Result :=
  match lowestKey s with
  | none => .next s
  | some k => done (s.setReg x (keyByte k))

end Sys2Proof.Machine
end

