-- ==== Sys2Proof/Machine/Dispatch.lean ====
section
/-! DEFINITION. Phase 3 of a step (40_step_cycle.md R84): one arm per instruction, in the order of the opcode table. -/

namespace Sys2Proof.Machine

def exec (i : Instr) (s : State) : Host.Outcome State Fault Refusal :=
  match i with
  | .clearScreen => Sys2Proof.Machine.execClearScreen s
  | .returnFromSub => Sys2Proof.Machine.execReturnFromSub s
  | .machineCodeCall addr => Sys2Proof.Machine.execMachineCodeCall addr s
  | .jump addr => Sys2Proof.Machine.execJump addr s
  | .callSub addr => Sys2Proof.Machine.execCallSub addr s
  | .skipIfEqualConst x nn => Sys2Proof.Machine.execSkipIfEqualConst x nn s
  | .skipIfNotEqualConst x nn => Sys2Proof.Machine.execSkipIfNotEqualConst x nn s
  | .skipIfRegEqual x y => Sys2Proof.Machine.execSkipIfRegEqual x y s
  | .setConst x nn => Sys2Proof.Machine.execSetConst x nn s
  | .addConst x nn => Sys2Proof.Machine.execAddConst x nn s
  | .set x y => Sys2Proof.Machine.execSet x y s
  | .or x y => Sys2Proof.Machine.execOr x y s
  | .and x y => Sys2Proof.Machine.execAnd x y s
  | .xor x y => Sys2Proof.Machine.execXor x y s
  | .addWithCarry x y => Sys2Proof.Machine.execAddWithCarry x y s
  | .subWithBorrow x y => Sys2Proof.Machine.execSubWithBorrow x y s
  | .shiftRight x y => Sys2Proof.Machine.execShiftRight x y s
  | .reverseSub x y => Sys2Proof.Machine.execReverseSub x y s
  | .shiftLeft x y => Sys2Proof.Machine.execShiftLeft x y s
  | .skipIfRegNotEqual x y => Sys2Proof.Machine.execSkipIfRegNotEqual x y s
  | .setAddressRegister addr => Sys2Proof.Machine.execSetAddressRegister addr s
  | .jumpWithOffset addr => Sys2Proof.Machine.execJumpWithOffset addr s
  | .random x nn => Sys2Proof.Machine.execRandom x nn s
  | .draw x y n => Sys2Proof.Machine.execDraw x y n s
  | .skipIfKey x => Sys2Proof.Machine.execSkipIfKey x s
  | .skipIfNotKey x => Sys2Proof.Machine.execSkipIfNotKey x s
  | .getDelay x => Sys2Proof.Machine.execGetDelay x s
  | .blockingGetKey x => Sys2Proof.Machine.execBlockingGetKey x s
  | .setDelay x => Sys2Proof.Machine.execSetDelay x s
  | .setSound x => Sys2Proof.Machine.execSetSound x s
  | .addToAddressRegister x => Sys2Proof.Machine.execAddToAddressRegister x s
  | .setAddressRegisterToSpriteFor x => Sys2Proof.Machine.execSetAddressRegisterToSpriteFor x s
  | .storeBCD x => Sys2Proof.Machine.execStoreBCD x s
  | .registerDump x => Sys2Proof.Machine.execRegisterDump x s
  | .registerLoad x => Sys2Proof.Machine.execRegisterLoad x s

end Sys2Proof.Machine
end

