-- ==== Sys2Proof/Machine/Step.lean ====
section
/-! DEFINITION. One step (40_step_cycle.md R80): fetch, decode, dispatch, timer tick; and placing an instruction where the next step
fetches. -/

namespace Sys2Proof.Machine

/-- `Step(s, rnd)` of R80; the random byte is the free value Random takes (log 2), the outcome stands in the next state (log 1). -/
def step (s : State) : Host.Outcome State Fault Refusal :=
  match fetch s with
  | .error k => raiseOob k
  | .ok w =>
    match decode w with
    | .error _ => raise (.unknownOpcode w s.pc)
    | .ok i => tickAfter (exec i s)

/-- Store one instruction word at pc, where the next step fetches it; it stands for the host's LoadProgram (log 7). Where no word can
be fetched at pc (pc >= 4095, R81) nothing is stored. -/
def State.withFetchWord (s : State) (nbits w : Nat) : State :=
  match memWrite .fetch s s.pc.toNat (bytesOfWord (tableWord nbits w)) with
  | .ok t => t
  | .error _ => s

end Sys2Proof.Machine
end

