-- ==== Sys2Proof/Machine/HostOps.lean ====
section
/-! DEFINITION. The operations the host performs on the block between steps (60_exceptions.md R183; 70_reset_and_hazards.md R190, R193):
Reset, LoadProgram, SetKeys, Step and ReadFramebuffer, each indivisible. -/

namespace Sys2Proof.Machine

/-- The memory Reset leaves, for 80 font bytes (R190): zero everywhere, then the font at 0x000..0x04F. -/
def resetMemory (font : Vector Byte Config.fontSize) : Memory := Memory.writeBytes [] 0 font.toList

/-- Reset with the parameter FONT (R6 a, R190): always the same MachineState. The count of random bytes already taken is not the
block's and goes on (log 2). -/
def hostReset (font : Vector Byte Config.fontSize) (s : State) : State :=
  { State.reset with mem := resetMemory font, draws := s.draws }

/-- `LoadError` (R170, R193): an error of LoadProgram, never of a step. -/
inductive LoadError where
  /-- The sequence is longer than 4096 - 0x200 bytes. -/
  | tooLarge
  deriving DecidableEq, Repr

/-- LoadProgram (R193): the bytes verbatim at 0x200, nothing else; `TooLarge` when there are more than 3584, and then no change. -/
def loadProgram (bytes : List Byte) (s : State) : Except LoadError State :=
  if bytes.length > Config.maxProgram then .error .tooLarge
  else .ok (s.setMem (s.mem.writeBytes Config.programBase bytes))

/-- SetKeys (R21, R183): all 16 flags overwritten, nothing else changes. -/
def setKeys (keys : Vector Bool 16) (s : State) : State := s.setKeyFlags keys

/-- ReadFramebuffer (R183): the 2048 cells, cell (x, y) at index x + y*64 (R20); it changes nothing. -/
def readFramebuffer (s : State) : List Bool := (List.range 2048).map (fun k => s.cell (k % 64) (k / 64))

/-- What a Step reports to the host: a `CycleOutcome` of R170; `refused` is the model's own and never comes (no instruction is without a
meaning). -/
inductive Report where
  /-- Continue or Beeped. -/
  | completed (o : CycleOutcome)
  /-- Fault(reason). -/
  | faulted (f : Fault)
  /-- The model has no meaning for the instruction. -/
  | refused (r : Refusal)
  deriving DecidableEq, Repr

/-- The host's Step (R80, R183): the state after it and the outcome. A fault leaves the state untouched (R173). Log 6. -/
def hostStep (s : State) : State × Report :=
  match step s with
  | .next t => (t, .completed t.outcome)
  | .fault f => (s, .faulted f)
  | .refused r => (s, .refused r)

/-- An operation of the host (R183), with its arguments. -/
inductive HostOp where
  | reset (font : Vector Byte Config.fontSize)
  | loadProgram (bytes : List Byte)
  | setKeys (keys : Vector Bool 16)
  | step
  | readFramebuffer
  deriving DecidableEq, Repr

/-- The state after an operation of the host. A refused load changes nothing (R193). -/
def afterHostOp (op : HostOp) (s : State) : State :=
  match op with
  | .reset font => hostReset font s
  | .loadProgram bytes =>
    match Sys2Proof.Machine.loadProgram bytes s with
    | .ok t => t
    | .error _ => s
  | .setKeys keys => Sys2Proof.Machine.setKeys keys s
  | .step => (hostStep s).1
  | .readFramebuffer => s

/-- The state after a sequence of host operations, one after another (R50). -/
def afterHostOps : List HostOp → State → State
  | [], s => s
  | op :: ops, s => afterHostOps ops (afterHostOp op s)

end Sys2Proof.Machine
end

