-- ==== Sys2Proof/Safety.lean ====
section
/-! DEFINITION. What counts as a state of the machine, a safe run and an ended run, in the terms the claims use (10_state.md R32,
60_exceptions.md R178, 70_reset_and_hazards.md R191, R199). -/

namespace Sys2Proof.Machine

/-- The states reachable from Reset "by steps and host operations" (R32): R191's launch state, with any FONT (R6 a), then any operation
of the host in any order. -/
inductive Reachable : State → Prop where
  | launch (font : Vector Byte Config.fontSize) : Reachable (hostReset font State.reset)
  | op (o : HostOp) {s : State} (h : Reachable s) : Reachable (afterHostOp o s)

/-- The invariants of R32 that are not already in the types (SP is in 0..16 by its type), with what they rest on: I in its legal range,
pc at most 0x10FE, every saved return address at most 0x1000 (R102), and memory in canonical form (log 4). -/
structure State.Inv (s : State) : Prop where
  memory : s.mem.wf
  address : s.i.toNat ≤ 0x0FFF
  counter : s.pc.toNat ≤ 0x10FE
  returns : ∀ k : Fin 16, (s.slot k).toNat ≤ 0x1000

/-- A step that completes: it neither faults nor refuses. -/
def State.Completes (s : State) : Prop := ∃ t, step s = .next t

/-- A safe run of n steps: each of them completes. -/
def State.SafeFor (n : Nat) (s : State) : Prop := ∃ t, Host.Core.run Sys2Proof.core n s = .next t

/-- The run has ended well (R199): pc addresses a Jump to pc, and DT = ST = 0. -/
def State.EndedWell (s : State) : Prop :=
  ∃ (w : Word) (addr : Addr), fetch s = .ok w ∧ decode w = .ok (.jump addr) ∧ addrWord addr = s.pc ∧ s.dt = 0 ∧ s.st = 0

/-- The run has ended badly (R199): the step returns Fault. -/
def State.EndedBadly (s : State) : Prop := ∃ f, step s = .fault f

end Sys2Proof.Machine
end

