-- ==== Sys2Proof/Certificates/Slice0/Obligations.lean ====
section
/-! DEFINITION. The statements for the provers: what the spec's numbered rules say of the decoder, the instructions, the step and the
host operations. Each is about every state and every operand unless its title says otherwise. -/

open Sys2Proof Sys2Proof.Machine

/-! ### The decoder -/

/-- Decode and encode agree (R60 to R69): a well-formed instruction's word, alone and as the two bytes memory holds, decodes to it, with
every operand at every value. The byte order is the spec's general knowledge (R42, log 13). -/
def Obligations.DecodeOfEncodeReturnsInstruction : Prop :=
  ∀ i : Instr, i.wf = true → decode (encode i) = .ok i ∧ decodeBytes (encodeBytes i) = .ok (i, [])

/-- The other direction: what is decoded is well formed, and its word is the word decoded, but for the nibble n1 that ClearScreen and
ReturnFromSub ignore (R67 a), which the encoder writes as 0 (R72). -/
def Obligations.EncodeOfDecodeReturnsWord : Prop :=
  ∀ (w : Word) (i : Instr), decode w = .ok i →
    i.wf = true ∧ encode i = if i = .clearScreen ∨ i = .returnFromSub then w &&& 0xF0FF#16 else w

/-- R66: "A word `w` selects the row with `(w & mask) == match`", row by row, with the operands of the row; MachineCodeCall "applies only
when rows 1 and 2 do not". -/
def Obligations.DecodeFollowsTheOpcodeTable : Prop :=
  ∀ w : Word,
    (w &&& 0xF0FF#16 = 0x000E#16 → decode w = .ok .clearScreen) ∧
    (w &&& 0xF0FF#16 = 0x00EE#16 → decode w = .ok .returnFromSub) ∧
    (w &&& 0xF000#16 = 0x0000#16 → w &&& 0xF0FF#16 ≠ 0x000E#16 → w &&& 0xF0FF#16 ≠ 0x00EE#16 →
      decode w = .ok (.machineCodeCall (w.extractLsb' 0 12))) ∧
    (w &&& 0xF000#16 = 0x1000#16 → decode w = .ok (.jump (w.extractLsb' 0 12))) ∧
    (w &&& 0xF000#16 = 0x2000#16 → decode w = .ok (.callSub (w.extractLsb' 0 12))) ∧
    (w &&& 0xF000#16 = 0x3000#16 → decode w = .ok (.skipIfEqualConst (w.extractLsb' 8 4).toFin (w.extractLsb' 0 8))) ∧
    (w &&& 0xF000#16 = 0x4000#16 → decode w = .ok (.skipIfNotEqualConst (w.extractLsb' 8 4).toFin (w.extractLsb' 0 8))) ∧
    (w &&& 0xF00F#16 = 0x5000#16 → decode w = .ok (.skipIfRegEqual (w.extractLsb' 8 4).toFin (w.extractLsb' 4 4).toFin)) ∧
    (w &&& 0xF000#16 = 0x6000#16 → decode w = .ok (.setConst (w.extractLsb' 8 4).toFin (w.extractLsb' 0 8))) ∧
    (w &&& 0xF000#16 = 0x7000#16 → decode w = .ok (.addConst (w.extractLsb' 8 4).toFin (w.extractLsb' 0 8))) ∧
    (w &&& 0xF00F#16 = 0x8000#16 → decode w = .ok (.set (w.extractLsb' 8 4).toFin (w.extractLsb' 4 4).toFin)) ∧
    (w &&& 0xF00F#16 = 0x8001#16 → decode w = .ok (.or (w.extractLsb' 8 4).toFin (w.extractLsb' 4 4).toFin)) ∧
    (w &&& 0xF00F#16 = 0x8002#16 → decode w = .ok (.and (w.extractLsb' 8 4).toFin (w.extractLsb' 4 4).toFin)) ∧
    (w &&& 0xF00F#16 = 0x8003#16 → decode w = .ok (.xor (w.extractLsb' 8 4).toFin (w.extractLsb' 4 4).toFin)) ∧
    (w &&& 0xF00F#16 = 0x8004#16 → decode w = .ok (.addWithCarry (w.extractLsb' 8 4).toFin (w.extractLsb' 4 4).toFin)) ∧
    (w &&& 0xF00F#16 = 0x8005#16 → decode w = .ok (.subWithBorrow (w.extractLsb' 8 4).toFin (w.extractLsb' 4 4).toFin)) ∧
    (w &&& 0xF00F#16 = 0x8006#16 → decode w = .ok (.shiftRight (w.extractLsb' 8 4).toFin (w.extractLsb' 4 4).toFin)) ∧
    (w &&& 0xF00F#16 = 0x8007#16 → decode w = .ok (.reverseSub (w.extractLsb' 8 4).toFin (w.extractLsb' 4 4).toFin)) ∧
    (w &&& 0xF00F#16 = 0x800E#16 → decode w = .ok (.shiftLeft (w.extractLsb' 8 4).toFin (w.extractLsb' 4 4).toFin)) ∧
    (w &&& 0xF00F#16 = 0x9000#16 → decode w = .ok (.skipIfRegNotEqual (w.extractLsb' 8 4).toFin (w.extractLsb' 4 4).toFin)) ∧
    (w &&& 0xF000#16 = 0xA000#16 → decode w = .ok (.setAddressRegister (w.extractLsb' 0 12))) ∧
    (w &&& 0xF000#16 = 0xB000#16 → decode w = .ok (.jumpWithOffset (w.extractLsb' 0 12))) ∧
    (w &&& 0xF000#16 = 0xC000#16 → decode w = .ok (.random (w.extractLsb' 8 4).toFin (w.extractLsb' 0 8))) ∧
    (w &&& 0xF000#16 = 0xD000#16 →
      decode w = .ok (.draw (w.extractLsb' 8 4).toFin (w.extractLsb' 4 4).toFin (w.extractLsb' 0 4))) ∧
    (w &&& 0xF0FF#16 = 0xE09E#16 → decode w = .ok (.skipIfKey (w.extractLsb' 8 4).toFin)) ∧
    (w &&& 0xF0FF#16 = 0xE0A1#16 → decode w = .ok (.skipIfNotKey (w.extractLsb' 8 4).toFin)) ∧
    (w &&& 0xF0FF#16 = 0xF007#16 → decode w = .ok (.getDelay (w.extractLsb' 8 4).toFin)) ∧
    (w &&& 0xF0FF#16 = 0xF00A#16 → decode w = .ok (.blockingGetKey (w.extractLsb' 8 4).toFin)) ∧
    (w &&& 0xF0FF#16 = 0xF015#16 → decode w = .ok (.setDelay (w.extractLsb' 8 4).toFin)) ∧
    (w &&& 0xF0FF#16 = 0xF018#16 → decode w = .ok (.setSound (w.extractLsb' 8 4).toFin)) ∧
    (w &&& 0xF0FF#16 = 0xF01E#16 → decode w = .ok (.addToAddressRegister (w.extractLsb' 8 4).toFin)) ∧
    (w &&& 0xF0FF#16 = 0xF029#16 → decode w = .ok (.setAddressRegisterToSpriteFor (w.extractLsb' 8 4).toFin)) ∧
    (w &&& 0xF0FF#16 = 0xF033#16 → decode w = .ok (.storeBCD (w.extractLsb' 8 4).toFin)) ∧
    (w &&& 0xF0FF#16 = 0xF055#16 → decode w = .ok (.registerDump (w.extractLsb' 8 4).toFin)) ∧
    (w &&& 0xF0FF#16 = 0xF065#16 → decode w = .ok (.registerLoad (w.extractLsb' 8 4).toFin))

/-- R70: the Unknown words are the five kinds it lists, each rejected under its own name, and no word else. -/
def Obligations.UnknownWordsAreTheListedOnes : Prop :=
  ∀ w : Word,
    (decode w = .error .unknown5 ↔ w &&& 0xF000#16 = 0x5000#16 ∧ w &&& 0x000F#16 ≠ 0) ∧
    (decode w = .error .unknown8 ↔ w &&& 0xF000#16 = 0x8000#16 ∧
      (w &&& 0x000F#16 = 0x8 ∨ w &&& 0x000F#16 = 0x9 ∨ w &&& 0x000F#16 = 0xA ∨ w &&& 0x000F#16 = 0xB ∨
        w &&& 0x000F#16 = 0xC ∨ w &&& 0x000F#16 = 0xD ∨ w &&& 0x000F#16 = 0xF)) ∧
    (decode w = .error .unknown9 ↔ w &&& 0xF000#16 = 0x9000#16 ∧ w &&& 0x000F#16 ≠ 0) ∧
    (decode w = .error .unknownE ↔ w &&& 0xF000#16 = 0xE000#16 ∧ w &&& 0x00FF#16 ≠ 0x9E ∧ w &&& 0x00FF#16 ≠ 0xA1) ∧
    (decode w = .error .unknownF ↔ w &&& 0xF000#16 = 0xF000#16 ∧
      w &&& 0x00FF#16 ≠ 0x07 ∧ w &&& 0x00FF#16 ≠ 0x0A ∧ w &&& 0x00FF#16 ≠ 0x15 ∧ w &&& 0x00FF#16 ≠ 0x18 ∧
      w &&& 0x00FF#16 ≠ 0x1E ∧ w &&& 0x00FF#16 ≠ 0x29 ∧ w &&& 0x00FF#16 ≠ 0x33 ∧ w &&& 0x00FF#16 ≠ 0x55 ∧ w &&& 0x00FF#16 ≠ 0x65) ∧
    decode w ≠ .error .truncated

/-- R72's examples and four words of the vectors of 95_test_vectors.md 2.1, the conventional clear-screen word among them (R67). -/
def Obligations.DecoderReadsTheWordsTheSpecWrites : Prop :=
  decode 0x612A#16 = .ok (.setConst 1 0x2A#8) ∧ decode 0xD015#16 = .ok (.draw 0 1 5#4) ∧ decode 0x1204#16 = .ok (.jump 0x204#12) ∧
    decode 0x000E#16 = .ok .clearScreen ∧ decode 0x00EE#16 = .ok .returnFromSub ∧
    decode 0x00E0#16 = .ok (.machineCodeCall 0x0E0#12) ∧ decode 0x8AB6#16 = .ok (.shiftRight 0xA 0xB) ∧
    decode 0xE39E#16 = .ok (.skipIfKey 3) ∧ decode 0xF333#16 = .ok (.storeBCD 3)

/-! ### The step -/

/-- R80: where the two bytes at pc decode to i, the step is the effect of i and then the timer tick, written out; a fault of the effect is
the step's. The outcome field is the model's own (log 1); which of the two bytes is the high one is the spec's general knowledge (R42,
log 13). -/
def Obligations.StepRunsTheDecodedInstruction : Prop :=
  ∀ (s : State) (i : Instr), s.pc.toNat + 2 ≤ 4096 → decode (s.byteAt s.pc.toNat ++ s.byteAt (s.pc.toNat + 1)) = .ok i →
    step s = match exec i s with
      | .next t => .next { t with
          dt := if t.dt = 0 then 0 else t.dt - 1
          st := if t.st = 0 then 0 else t.st - 1
          outcome := if t.st = 1 then .beeped else .cont }
      | .fault f => .fault f
      | .refused r => .refused r

/-- Placing a table word (`withFetchWord`) makes the next step run the instruction it decodes to, in a state that differs from s in the two
bytes at pc only. The model's own interface, log 7; the byte order is the spec's general knowledge (R42, log 13). -/
def Obligations.PlacedWordIsFetched : Prop :=
  ∀ (s : State) (w : Word), s.pc.toNat + 2 ≤ 4096 →
    fetch (s.withFetchWord 16 w.toNat) = .ok w ∧
    (∀ a, a ≠ s.pc.toNat → a ≠ s.pc.toNat + 1 → (s.withFetchWord 16 w.toNat).byteAt a = s.byteAt a) ∧
    s.withFetchWord 16 w.toNat = { s with mem := (s.withFetchWord 16 w.toNat).mem }

/-- R81: the fetch faults exactly when pc + 1 >= 4096, the faulting step changes nothing, and otherwise the word is
`mem[pc] ++ mem[pc+1]`, first byte high, at every pc even or odd. The byte order is the spec's general knowledge (R42, log 13). -/
def Obligations.FetchFaultsExactlyPastTheEnd : Prop :=
  ∀ s : State,
    (step s = .fault (.outOfBounds .fetch) ↔ 4096 ≤ s.pc.toNat + 1) ∧
    (4096 ≤ s.pc.toNat + 1 → hostStep s = (s, .faulted (.outOfBounds .fetch))) ∧
    (s.pc.toNat + 1 < 4096 →
      ∃ w, fetch s = .ok w ∧ w.toNat = (s.byteAt s.pc.toNat).toNat * 256 + (s.byteAt (s.pc.toNat + 1)).toNat)

/-- R83, R171: a word that decodes to Unknown gives `Fault(UnknownOpcode(word, pc))` with the word fetched and the pc it was fetched from,
the step is inert, and this fault has no other cause. That the word is the byte at pc followed by the byte at pc + 1, first byte high, is
the spec's general knowledge (R42, log 13). -/
def Obligations.UnknownWordFaultsInertly : Prop :=
  ∀ s : State, s.pc.toNat + 2 ≤ 4096 → ∀ w : Word, w = (s.byteAt s.pc.toNat ++ s.byteAt (s.pc.toNat + 1) : BitVec 16) →
    ((∃ r, decode w = .error r) → step s = .fault (.unknownOpcode w s.pc) ∧ hostStep s = (s, .faulted (.unknownOpcode w s.pc))) ∧
    (∀ w' p, step s = .fault (.unknownOpcode w' p) → w' = w ∧ p = s.pc ∧ ∃ r, decode w = .error r)

/-- R88, R89: in every step that completes both timers count down by one if non-zero, on the values the effect left, and the outcome is
Beeped exactly when the effect left ST = 1; nothing else is touched by the tick. A faulting step does not tick. The outcome
field is the model's own (log 1), the byte order of the word at pc the spec's general knowledge (R42, log 13). -/
def Obligations.TickFollowsTheEffect : Prop :=
  (∀ s t : State, step s = .next t → ∃ i u, decode (s.byteAt s.pc.toNat ++ s.byteAt (s.pc.toNat + 1)) = .ok i ∧ exec i s = .next u ∧
      t.dt.toNat = u.dt.toNat - 1 ∧ t.st.toNat = u.st.toNat - 1 ∧ (t.outcome = .beeped ↔ u.st = 1) ∧ (t.outcome = .cont ↔ u.st ≠ 1) ∧
      t = { u with dt := t.dt, st := t.st, outcome := t.outcome }) ∧
  (∀ (s : State) (f : Fault), step s = .fault f → (hostStep s).1.dt = s.dt ∧ (hostStep s).1.st = s.st)

/-- R89 "Beeped is one-shot": after a step that beeped, the next step beeps only if it is a SetSound that writes 1. The outcome
field is the model's own (log 1), the byte order of the word at pc the spec's general knowledge (R42, log 13). -/
def Obligations.BeepIsOneShot : Prop :=
  ∀ s t u : State, step s = .next t → t.outcome = .beeped → step t = .next u → u.outcome = .beeped →
    ∃ x, decode (t.byteAt t.pc.toNat ++ t.byteAt (t.pc.toNat + 1)) = .ok (.setSound x) ∧ t.reg x = 1

/-- R173, R91: the step that returns a fault leaves every element of the state as it was, and repeating it returns the same fault; the
fault depends neither on KEY nor on the random byte. The random byte is the model's free value, which its own count `draws` selects
(log 2), so "whatever the byte" is said as "whatever the count". That the fault's state is the state before it is R173 in the model's
form (log 6). -/
def Obligations.FaultIsPreciseAndRepeats : Prop :=
  ∀ (s : State) (f : Fault), step s = .fault f →
    hostStep s = (s, .faulted f) ∧ hostStep (hostStep s).1 = (s, .faulted f) ∧
    ∀ (keys : Vector Bool 16) (n : Nat), step { s with keys := keys, draws := n } = .fault f

/-- R90: the step is total, every step completes or faults, never both; no instruction is left without a meaning. -/
def Obligations.EveryStepCompletesOrFaults : Prop :=
  ∀ s : State, (s.Completes ∨ s.EndedBadly) ∧ ¬ (s.Completes ∧ s.EndedBadly) ∧ ∀ r, step s ≠ .refused r

/-- R172: the conditions that raise OutOfBounds, each with its kind, and no instruction else. -/
def Obligations.OutOfBoundsExactlyAsTabulated : Prop :=
  (∀ s : State, step s = .fault (.outOfBounds .fetch) ↔ s.pc.toNat ≥ 4095) ∧
  ∀ (i : Instr) (s : State) (f : Fault), exec i s = .fault f ↔
    match i with
    | .draw _ _ n => f = .outOfBounds .memRead ∧ n.toNat > 0 ∧ s.i.toNat + n.toNat > 4096
    | .registerLoad x => f = .outOfBounds .memRead ∧ s.i.toNat + x.val + 1 > 4096
    | .storeBCD _ => f = .outOfBounds .memWrite ∧ s.i.toNat + 3 > 4096
    | .registerDump x => f = .outOfBounds .memWrite ∧ s.i.toNat + x.val + 1 > 4096
    | .callSub _ => f = .outOfBounds .stackOverflow ∧ s.sp.val = 16
    | .returnFromSub => f = .outOfBounds .stackUnderflow ∧ s.sp.val = 0
    | .skipIfKey x => f = .outOfBounds .keyIndex ∧ (s.reg x).toNat > 15
    | .skipIfNotKey x => f = .outOfBounds .keyIndex ∧ (s.reg x).toNat > 15
    | _ => False

/-- R85: pc after every instruction that completes, class by class (sequential, skip, direct, wait); the additions do not wrap at a pc that
can be fetched from; a faulting step leaves pc. That JumpWithOffset adds V[0] is the spec's general knowledge (R104, log 13). -/
def Obligations.PcFollowsItsClass : Prop :=
  (∀ (i : Instr) (s t : State), exec i s = .next t →
    t.pc = match i with
      | .jump addr => addr.setWidth 16
      | .jumpWithOffset addr => addr.setWidth 16 + (s.reg 0).setWidth 16
      | .callSub addr => addr.setWidth 16
      | .returnFromSub => if h : 0 < s.sp.val then s.slot ⟨s.sp.val - 1, by omega⟩ else s.pc
      | .skipIfEqualConst x nn => if s.reg x = nn then s.pc + 4 else s.pc + 2
      | .skipIfNotEqualConst x nn => if s.reg x ≠ nn then s.pc + 4 else s.pc + 2
      | .skipIfRegEqual x y => if s.reg x = s.reg y then s.pc + 4 else s.pc + 2
      | .skipIfRegNotEqual x y => if s.reg x ≠ s.reg y then s.pc + 4 else s.pc + 2
      | .skipIfKey x => if ∃ k : Reg, k.val = (s.reg x).toNat ∧ s.keyHeld k = true then s.pc + 4 else s.pc + 2
      | .skipIfNotKey x => if ∃ k : Reg, k.val = (s.reg x).toNat ∧ s.keyHeld k = true then s.pc + 2 else s.pc + 4
      | .blockingGetKey _ => if ∃ k : Reg, s.keyHeld k = true then s.pc + 2 else s.pc
      | _ => s.pc + 2) ∧
  (∀ s : State, s.pc.toNat + 1 < 4096 → (s.pc + 2).toNat = s.pc.toNat + 2 ∧ (s.pc + 4).toNat = s.pc.toNat + 4) ∧
  (∀ (s : State) (f : Fault), step s = .fault f → (hostStep s).1.pc = s.pc)

/-! ### Flow (41_flow.md) -/

/-- R100: MachineCodeCall, every word of group 0x0 that is neither ClearScreen nor ReturnFromSub, only advances pc. -/
def Obligations.MachineCodeCallOnlyAdvances : Prop :=
  ∀ (addr : Addr) (s : State),
    (addr.extractLsb' 0 8 ≠ 0x0E#8 → addr.extractLsb' 0 8 ≠ 0xEE#8 →
      decode (0x0#4 ++ addr : BitVec 16) = .ok (.machineCodeCall addr)) ∧
    exec (.machineCodeCall addr) s = .next { s with pc := s.pc + 2 }

/-- R101: `pc <- zext_16(NNN)`, nothing else changes, no fault whatever NNN is. -/
def Obligations.JumpSetsPc : Prop :=
  ∀ (addr : Addr) (s : State),
    decode (0x1#4 ++ addr : BitVec 16) = .ok (.jump addr) ∧
    exec (.jump addr) s = .next { s with pc := addr.setWidth 16 }

/-- R102: CallSub stores pc + 2 in STACK[SP], adds 1 to SP and jumps; at SP = 16 it faults. -/
def Obligations.CallSubPushesTheNextPc : Prop :=
  ∀ (addr : Addr) (s : State),
    decode (0x2#4 ++ addr : BitVec 16) = .ok (.callSub addr) ∧
    (s.sp.val < 16 → ∃ t, exec (.callSub addr) s = .next t ∧ t.sp.val = s.sp.val + 1 ∧
      (∀ k : Fin 16, t.slot k = if k.val = s.sp.val then s.pc + 2 else s.slot k) ∧
      t = { s with stack := t.stack, sp := t.sp, pc := addr.setWidth 16 }) ∧
    (s.sp.val = 16 → exec (.callSub addr) s = .fault (.outOfBounds .stackOverflow))

/-- R103: ReturnFromSub subtracts 1 from SP and loads pc from STACK[SP], whatever the slot holds; the slot keeps its value; at SP = 0 it
faults. The nibble n1 of its word is ignored. -/
def Obligations.ReturnFromSubPopsIntoPc : Prop :=
  ∀ (x : Reg) (s : State),
    decode ((0x0#4 ++ (BitVec.ofFin x : BitVec 4) : BitVec 8) ++ 0xEE#8 : BitVec 16) = .ok .returnFromSub ∧
    (0 < s.sp.val → ∃ (t : State) (k : Fin 16), exec .returnFromSub s = .next t ∧ k.val + 1 = s.sp.val ∧ t.sp.val = k.val ∧
      t = { s with sp := t.sp, pc := s.slot k }) ∧
    (s.sp.val = 0 → exec .returnFromSub s = .fault (.outOfBounds .stackUnderflow))

/-- R104: `pc <- zext_16(NNN) + zext_16(V[0])`, not reduced modulo 4096. That the register is V[0] is the spec's general knowledge (log 13). -/
def Obligations.JumpWithOffsetAddsV0 : Prop :=
  ∀ (addr : Addr) (s : State),
    decode (0xB#4 ++ addr : BitVec 16) = .ok (.jumpWithOffset addr) ∧
    ∃ t, exec (.jumpWithOffset addr) s = .next t ∧ t.pc.toNat = addr.toNat + (s.reg 0).toNat ∧ t = { s with pc := t.pc }

/-- A call and then a return (R102, R103): pc comes back to the instruction after the call and SP to its value before it; the only other
trace is the return address left in the slot. -/
def Obligations.CallThenReturnComesBack : Prop :=
  ∀ (addr : Addr) (s : State), s.sp.val < 16 →
    ∃ t u, exec (.callSub addr) s = .next t ∧ exec .returnFromSub t = .next u ∧ u.pc = s.pc + 2 ∧ u.sp = s.sp ∧
      (∀ k : Fin 16, u.slot k = if k.val = s.sp.val then s.pc + 2 else s.slot k) ∧ u = { s with stack := u.stack, pc := u.pc }

/-! ### Skips (42_skip.md) -/

/-- R110, R111: the skips on a constant, and nothing but pc changes. -/
def Obligations.ConstantSkips : Prop :=
  ∀ (x : Reg) (nn : Byte) (s : State),
    decode ((0x3#4 ++ (BitVec.ofFin x : BitVec 4) : BitVec 8) ++ nn : BitVec 16) = .ok (.skipIfEqualConst x nn) ∧
    decode ((0x4#4 ++ (BitVec.ofFin x : BitVec 4) : BitVec 8) ++ nn : BitVec 16) = .ok (.skipIfNotEqualConst x nn) ∧
    exec (.skipIfEqualConst x nn) s = .next { s with pc := if s.reg x = nn then s.pc + 4 else s.pc + 2 } ∧
    exec (.skipIfNotEqualConst x nn) s = .next { s with pc := if s.reg x ≠ nn then s.pc + 4 else s.pc + 2 }

/-- R112, R113: the skips on two registers, their words with n3 other than 0 Unknown, and nothing but pc changes. -/
def Obligations.RegisterSkips : Prop :=
  ∀ (x y : Reg) (n : Nibble) (s : State),
    decode ((0x5#4 ++ (BitVec.ofFin x : BitVec 4) : BitVec 8) ++ ((BitVec.ofFin y : BitVec 4) ++ n : BitVec 8) : BitVec 16) =
      (if n = 0 then .ok (.skipIfRegEqual x y) else .error .unknown5) ∧
    decode ((0x9#4 ++ (BitVec.ofFin x : BitVec 4) : BitVec 8) ++ ((BitVec.ofFin y : BitVec 4) ++ n : BitVec 8) : BitVec 16) =
      (if n = 0 then .ok (.skipIfRegNotEqual x y) else .error .unknown9) ∧
    exec (.skipIfRegEqual x y) s = .next { s with pc := if s.reg x = s.reg y then s.pc + 4 else s.pc + 2 } ∧
    exec (.skipIfRegNotEqual x y) s = .next { s with pc := if s.reg x ≠ s.reg y then s.pc + 4 else s.pc + 2 }

/-- R114, R115: the skips on the flag of key V[X], and the fault when V[X] > 15; nothing but pc changes. -/
def Obligations.KeySkips : Prop :=
  ∀ (x : Reg) (s : State),
    decode ((0xE#4 ++ (BitVec.ofFin x : BitVec 4) : BitVec 8) ++ 0x9E#8 : BitVec 16) = .ok (.skipIfKey x) ∧
    decode ((0xE#4 ++ (BitVec.ofFin x : BitVec 4) : BitVec 8) ++ 0xA1#8 : BitVec 16) = .ok (.skipIfNotKey x) ∧
    (∀ k : Reg, (s.reg x).toNat = k.val →
      exec (.skipIfKey x) s = .next { s with pc := if s.keyHeld k = true then s.pc + 4 else s.pc + 2 } ∧
      exec (.skipIfNotKey x) s = .next { s with pc := if s.keyHeld k = false then s.pc + 4 else s.pc + 2 }) ∧
    ((s.reg x).toNat > 15 → exec (.skipIfKey x) s = .fault (.outOfBounds .keyIndex) ∧
      exec (.skipIfNotKey x) s = .fault (.outOfBounds .keyIndex))

/-! ### Constants, logic, arithmetic, shifts, Random (43_alu.md) -/

/-- R120, R121: `V[X] <- NN` and `V[X] <- (V[X] + NN) mod 256`, no flag. -/
def Obligations.ConstantWrites : Prop :=
  ∀ (x : Reg) (nn : Byte) (s : State),
    decode ((0x6#4 ++ (BitVec.ofFin x : BitVec 4) : BitVec 8) ++ nn : BitVec 16) = .ok (.setConst x nn) ∧
    decode ((0x7#4 ++ (BitVec.ofFin x : BitVec 4) : BitVec 8) ++ nn : BitVec 16) = .ok (.addConst x nn) ∧
    (∃ t, exec (.setConst x nn) s = .next t ∧ t.reg x = nn ∧ (∀ k, k ≠ x → t.reg k = s.reg k) ∧
      t = { s with v := t.v, pc := s.pc + 2 }) ∧
    (∃ t, exec (.addConst x nn) s = .next t ∧ (t.reg x).toNat = ((s.reg x).toNat + nn.toNat) % 256 ∧
      (∀ k, k ≠ x → t.reg k = s.reg k) ∧ t = { s with v := t.v, pc := s.pc + 2 })

/-- R122 to R125: move, OR, AND and exclusive OR, bit by bit; V[0xF] is not written unless it is X. -/
def Obligations.MoveAndLogic : Prop :=
  ∀ (x y : Reg) (s : State),
    decode ((0x8#4 ++ (BitVec.ofFin x : BitVec 4) : BitVec 8) ++ ((BitVec.ofFin y : BitVec 4) ++ 0x0#4 : BitVec 8) : BitVec 16) =
      .ok (.set x y) ∧
    decode ((0x8#4 ++ (BitVec.ofFin x : BitVec 4) : BitVec 8) ++ ((BitVec.ofFin y : BitVec 4) ++ 0x1#4 : BitVec 8) : BitVec 16) =
      .ok (.or x y) ∧
    decode ((0x8#4 ++ (BitVec.ofFin x : BitVec 4) : BitVec 8) ++ ((BitVec.ofFin y : BitVec 4) ++ 0x2#4 : BitVec 8) : BitVec 16) =
      .ok (.and x y) ∧
    decode ((0x8#4 ++ (BitVec.ofFin x : BitVec 4) : BitVec 8) ++ ((BitVec.ofFin y : BitVec 4) ++ 0x3#4 : BitVec 8) : BitVec 16) =
      .ok (.xor x y) ∧
    (∃ t, exec (.set x y) s = .next t ∧ t.reg x = s.reg y ∧ (∀ k, k ≠ x → t.reg k = s.reg k) ∧
      t = { s with v := t.v, pc := s.pc + 2 }) ∧
    (∃ t, exec (.or x y) s = .next t ∧ (∀ b, (t.reg x).getLsbD b = ((s.reg x).getLsbD b || (s.reg y).getLsbD b)) ∧
      (∀ k, k ≠ x → t.reg k = s.reg k) ∧ t = { s with v := t.v, pc := s.pc + 2 }) ∧
    (∃ t, exec (.and x y) s = .next t ∧ (∀ b, (t.reg x).getLsbD b = ((s.reg x).getLsbD b && (s.reg y).getLsbD b)) ∧
      (∀ k, k ≠ x → t.reg k = s.reg k) ∧ t = { s with v := t.v, pc := s.pc + 2 }) ∧
    (∃ t, exec (.xor x y) s = .next t ∧ (∀ b, (t.reg x).getLsbD b = ((s.reg x).getLsbD b ^^ (s.reg y).getLsbD b)) ∧
      (∀ k, k ≠ x → t.reg k = s.reg k) ∧ t = { s with v := t.v, pc := s.pc + 2 })

/-- R126: the wrapped sum in V[X], then the carry in V[0xF], which V[0xF] ends holding also when X = 0xF. -/
def Obligations.AddWithCarryResult : Prop :=
  ∀ (x y : Reg) (s : State),
    decode ((0x8#4 ++ (BitVec.ofFin x : BitVec 4) : BitVec 8) ++ ((BitVec.ofFin y : BitVec 4) ++ 0x4#4 : BitVec 8) : BitVec 16) =
      .ok (.addWithCarry x y) ∧
    ∃ t, exec (.addWithCarry x y) s = .next t ∧
      (x ≠ 15 → (t.reg x).toNat = ((s.reg x).toNat + (s.reg y).toNat) % 256) ∧
      t.reg 15 = (if (s.reg x).toNat + (s.reg y).toNat ≥ 256 then 1 else 0) ∧
      (∀ k, k ≠ x → k ≠ 15 → t.reg k = s.reg k) ∧ t = { s with v := t.v, pc := s.pc + 2 }

/-- R127, R129: the two subtractions and their not-borrow flag. -/
def Obligations.SubtractionResults : Prop :=
  ∀ (x y : Reg) (s : State),
    decode ((0x8#4 ++ (BitVec.ofFin x : BitVec 4) : BitVec 8) ++ ((BitVec.ofFin y : BitVec 4) ++ 0x5#4 : BitVec 8) : BitVec 16) =
      .ok (.subWithBorrow x y) ∧
    decode ((0x8#4 ++ (BitVec.ofFin x : BitVec 4) : BitVec 8) ++ ((BitVec.ofFin y : BitVec 4) ++ 0x7#4 : BitVec 8) : BitVec 16) =
      .ok (.reverseSub x y) ∧
    (∃ t, exec (.subWithBorrow x y) s = .next t ∧
      (x ≠ 15 → ((t.reg x).toNat : Int) = ((s.reg x).toNat - (s.reg y).toNat : Int) % 256) ∧
      t.reg 15 = (if (s.reg x).toNat ≥ (s.reg y).toNat then 1 else 0) ∧
      (∀ k, k ≠ x → k ≠ 15 → t.reg k = s.reg k) ∧ t = { s with v := t.v, pc := s.pc + 2 }) ∧
    (∃ t, exec (.reverseSub x y) s = .next t ∧
      (x ≠ 15 → ((t.reg x).toNat : Int) = ((s.reg y).toNat - (s.reg x).toNat : Int) % 256) ∧
      t.reg 15 = (if (s.reg y).toNat ≥ (s.reg x).toNat then 1 else 0) ∧
      (∀ k, k ≠ x → k ≠ 15 → t.reg k = s.reg k) ∧ t = { s with v := t.v, pc := s.pc + 2 })

/-- R128, R130: the shifts take V[Y] as their source and leave the bit shifted out in V[0xF]. That the source is V[Y] and not V[X] is
the configuration point SHIFT_SOURCE at this hardware's value (R6 b, log 11). -/
def Obligations.ShiftResults : Prop :=
  ∀ (x y : Reg) (s : State),
    decode ((0x8#4 ++ (BitVec.ofFin x : BitVec 4) : BitVec 8) ++ ((BitVec.ofFin y : BitVec 4) ++ 0x6#4 : BitVec 8) : BitVec 16) =
      .ok (.shiftRight x y) ∧
    decode ((0x8#4 ++ (BitVec.ofFin x : BitVec 4) : BitVec 8) ++ ((BitVec.ofFin y : BitVec 4) ++ 0xE#4 : BitVec 8) : BitVec 16) =
      .ok (.shiftLeft x y) ∧
    (∃ t, exec (.shiftRight x y) s = .next t ∧ (x ≠ 15 → (t.reg x).toNat = (s.reg y).toNat / 2) ∧
      (t.reg 15).toNat = (s.reg y).toNat % 2 ∧
      (∀ k, k ≠ x → k ≠ 15 → t.reg k = s.reg k) ∧ t = { s with v := t.v, pc := s.pc + 2 }) ∧
    (∃ t, exec (.shiftLeft x y) s = .next t ∧ (x ≠ 15 → (t.reg x).toNat = (s.reg y).toNat * 2 % 256) ∧
      (t.reg 15).toNat = (s.reg y).toNat / 128 ∧
      (∀ k, k ≠ x → k ≠ 15 → t.reg k = s.reg k) ∧ t = { s with v := t.v, pc := s.pc + 2 })

/-- R131: `V[X] <- rnd & NN`, for every byte the port may hold; `exec` takes it from the free value, which the model's own count `draws`
selects and Random advances (log 2), so V[X] has no bit outside NN whatever the byte is. -/
def Obligations.RandomIsMasked : Prop :=
  ∀ (x : Reg) (nn : Byte) (s : State),
    decode ((0xC#4 ++ (BitVec.ofFin x : BitVec 4) : BitVec 8) ++ nn : BitVec 16) = .ok (.random x nn) ∧
    (∀ rnd : Byte, ∃ t, setMasked x nn rnd s = .next t ∧ t.reg x = rnd &&& nn ∧ (∀ k, k ≠ x → t.reg k = s.reg k) ∧
      t = { s with v := t.v, pc := s.pc + 2 }) ∧
    (∃ t, exec (.random x nn) s = .next t ∧ t.reg x = Config.rnd s.draws &&& nn ∧ t.reg x &&& ~~~nn = 0 ∧
      (∀ k, k ≠ x → t.reg k = s.reg k) ∧ t = { s with v := t.v, pc := s.pc + 2, draws := s.draws + 1 })

/-! ### The address register and memory (44_index_memory.md) -/

/-- R140, R141, R142: the three writers of I. -/
def Obligations.AddressRegisterWrites : Prop :=
  ∀ (addr : Addr) (x : Reg) (s : State),
    decode (0xA#4 ++ addr : BitVec 16) = .ok (.setAddressRegister addr) ∧
    decode ((0xF#4 ++ (BitVec.ofFin x : BitVec 4) : BitVec 8) ++ 0x1E#8 : BitVec 16) = .ok (.addToAddressRegister x) ∧
    decode ((0xF#4 ++ (BitVec.ofFin x : BitVec 4) : BitVec 8) ++ 0x29#8 : BitVec 16) = .ok (.setAddressRegisterToSpriteFor x) ∧
    (∃ t, exec (.setAddressRegister addr) s = .next t ∧ t.i.toNat = addr.toNat ∧ t = { s with i := t.i, pc := s.pc + 2 }) ∧
    (∃ t, exec (.addToAddressRegister x) s = .next t ∧ t.i.toNat = (s.i.toNat + (s.reg x).toNat) % 4096 ∧
      t = { s with i := t.i, pc := s.pc + 2 }) ∧
    (∃ t, exec (.setAddressRegisterToSpriteFor x) s = .next t ∧ t.i.toNat = (s.reg x).toNat * 5 ∧
      t = { s with i := t.i, pc := s.pc + 2 })

/-- R143: StoreBCD puts the three digits at I, I+1, I+2 and changes nothing else but pc; it faults when I + 3 > 4096. -/
def Obligations.StoreBCDStoresTheDigits : Prop :=
  ∀ (x : Reg) (s : State),
    decode ((0xF#4 ++ (BitVec.ofFin x : BitVec 4) : BitVec 8) ++ 0x33#8 : BitVec 16) = .ok (.storeBCD x) ∧
    (s.i.toNat + 3 ≤ 4096 → ∃ t, exec (.storeBCD x) s = .next t ∧
      (t.byteAt s.i.toNat).toNat = (s.reg x).toNat / 100 ∧
      (t.byteAt (s.i.toNat + 1)).toNat = (s.reg x).toNat / 10 % 10 ∧
      (t.byteAt (s.i.toNat + 2)).toNat = (s.reg x).toNat % 10 ∧
      (∀ a, a < s.i.toNat ∨ s.i.toNat + 3 ≤ a → t.byteAt a = s.byteAt a) ∧ t = { s with mem := t.mem, pc := s.pc + 2 }) ∧
    (s.i.toNat + 3 > 4096 → exec (.storeBCD x) s = .fault (.outOfBounds .memWrite))

/-- R144: RegisterDump stores V[k] at I + k for k = 0..X and changes nothing else but pc; it faults when I + X + 1 > 4096. -/
def Obligations.RegisterDumpStoresTheRegisters : Prop :=
  ∀ (x : Reg) (s : State),
    decode ((0xF#4 ++ (BitVec.ofFin x : BitVec 4) : BitVec 8) ++ 0x55#8 : BitVec 16) = .ok (.registerDump x) ∧
    (s.i.toNat + x.val + 1 ≤ 4096 → ∃ t, exec (.registerDump x) s = .next t ∧
      (∀ k : Reg, k.val ≤ x.val → t.byteAt (s.i.toNat + k.val) = s.reg k) ∧
      (∀ a, a < s.i.toNat ∨ s.i.toNat + x.val + 1 ≤ a → t.byteAt a = s.byteAt a) ∧ t = { s with mem := t.mem, pc := s.pc + 2 }) ∧
    (s.i.toNat + x.val + 1 > 4096 → exec (.registerDump x) s = .fault (.outOfBounds .memWrite))

/-- R145: RegisterLoad loads V[k] from I + k for k = 0..X and changes nothing else but pc; it faults when I + X + 1 > 4096. -/
def Obligations.RegisterLoadLoadsTheRegisters : Prop :=
  ∀ (x : Reg) (s : State),
    decode ((0xF#4 ++ (BitVec.ofFin x : BitVec 4) : BitVec 8) ++ 0x65#8 : BitVec 16) = .ok (.registerLoad x) ∧
    (s.i.toNat + x.val + 1 ≤ 4096 → ∃ t, exec (.registerLoad x) s = .next t ∧
      (∀ k : Reg, t.reg k = if k.val ≤ x.val then s.byteAt (s.i.toNat + k.val) else s.reg k) ∧
      t = { s with v := t.v, pc := s.pc + 2 }) ∧
    (s.i.toNat + x.val + 1 > 4096 → exec (.registerLoad x) s = .fault (.outOfBounds .memRead))

/-- The document's round trip (R144, R145, T6): a dump, any change of V[0]..V[X], and a load through the same I give the registers back. -/
def Obligations.DumpThenLoadRestores : Prop :=
  ∀ (x : Reg) (s : State) (v : Vector Byte 16), s.i.toNat + x.val + 1 ≤ 4096 →
    ∃ t u, exec (.registerDump x) s = .next t ∧ exec (.registerLoad x) { t with v := v } = .next u ∧ u.i = s.i ∧
      ∀ k : Reg, u.reg k = if k.val ≤ x.val then s.reg k else v[k.val]

/-- R53, R201: a store is seen by the very next fetch, whichever bytes of the next word it covers: both, the first, the second or none.
After a step of StoreBCD or RegisterDump, and after a LoadProgram, the next fetch puts together, the byte at pc high (the byte order is
the spec's general knowledge, R42, log 13), two bytes each of which is the byte stored at its address, where one was stored there, and
else the byte memory held before. -/
def Obligations.StoreIsSeenByTheNextFetch : Prop :=
  (∀ (x : Reg) (s t : State),
    decode (s.byteAt s.pc.toNat ++ s.byteAt (s.pc.toNat + 1)) = .ok (.storeBCD x) → step s = .next t → t.pc.toNat + 2 ≤ 4096 →
    ∃ b : Fin 2 → Byte, fetch t = .ok (b 0 ++ b 1) ∧ ∀ j : Fin 2,
      (t.pc.toNat + j.val = s.i.toNat → (b j).toNat = (s.reg x).toNat / 100) ∧
      (t.pc.toNat + j.val = s.i.toNat + 1 → (b j).toNat = (s.reg x).toNat / 10 % 10) ∧
      (t.pc.toNat + j.val = s.i.toNat + 2 → (b j).toNat = (s.reg x).toNat % 10) ∧
      (t.pc.toNat + j.val < s.i.toNat ∨ s.i.toNat + 3 ≤ t.pc.toNat + j.val → b j = s.byteAt (t.pc.toNat + j.val))) ∧
  (∀ (x : Reg) (s t : State),
    decode (s.byteAt s.pc.toNat ++ s.byteAt (s.pc.toNat + 1)) = .ok (.registerDump x) → step s = .next t → t.pc.toNat + 2 ≤ 4096 →
    ∃ b : Fin 2 → Byte, fetch t = .ok (b 0 ++ b 1) ∧ ∀ j : Fin 2,
      (∀ k : Reg, k.val ≤ x.val → t.pc.toNat + j.val = s.i.toNat + k.val → b j = s.reg k) ∧
      (t.pc.toNat + j.val < s.i.toNat ∨ s.i.toNat + x.val + 1 ≤ t.pc.toNat + j.val → b j = s.byteAt (t.pc.toNat + j.val))) ∧
  (∀ (bytes : List Byte) (s : State), bytes.length ≤ 3584 → s.pc.toNat + 2 ≤ 4096 →
    ∃ b : Fin 2 → Byte, fetch (afterHostOp (.loadProgram bytes) s) = .ok (b 0 ++ b 1) ∧ ∀ j : Fin 2,
      (∀ k, (h : k < bytes.length) → s.pc.toNat + j.val = 0x200 + k → b j = bytes[k]) ∧
      (s.pc.toNat + j.val < 0x200 ∨ 0x200 + bytes.length ≤ s.pc.toNat + j.val → b j = s.byteAt (s.pc.toNat + j.val)))

/-! ### Display (45_display.md) -/

/-- R150: every cell false, V[0xF] not written, n1 of the word ignored. -/
def Obligations.ClearScreenClearsEveryCell : Prop :=
  ∀ (x : Reg) (s : State),
    decode ((0x0#4 ++ (BitVec.ofFin x : BitVec 4) : BitVec 8) ++ 0x0E#8 : BitVec 16) = .ok .clearScreen ∧
    ∃ t, exec .clearScreen s = .next t ∧ (∀ px py, t.cell px py = false) ∧ t = { s with fb := t.fb, pc := s.pc + 2 }

/-- R151, R152: Draw toggles exactly the cells of the grid under a 1 bit of the sprite at I, clipped and not wrapped, with the origin
(V[X], V[Y]) read before the flag is written; V[0xF] is the collision; nothing else changes but pc; it faults when N > 0 and
I + N > 4096. -/
def Obligations.DrawTogglesTheSprite : Prop :=
  ∀ (x y : Reg) (n : Nibble) (s : State) (hit : Nat → Nat → Prop),
    (∀ px py, hit px py ↔ (s.reg x).toNat ≤ px ∧ px < (s.reg x).toNat + 8 ∧ (s.reg y).toNat ≤ py ∧ py < (s.reg y).toNat + n.toNat ∧
      (s.byteAt (s.i.toNat + (py - (s.reg y).toNat))).getLsbD (7 - (px - (s.reg x).toNat)) = true) →
    decode ((0xD#4 ++ (BitVec.ofFin x : BitVec 4) : BitVec 8) ++ ((BitVec.ofFin y : BitVec 4) ++ n : BitVec 8) : BitVec 16) =
      .ok (.draw x y n) ∧
    (n.toNat = 0 ∨ s.i.toNat + n.toNat ≤ 4096 → ∃ t, exec (.draw x y n) s = .next t ∧
      (∀ px py, px ≤ 63 → py ≤ 31 → (hit px py → t.cell px py = !s.cell px py) ∧ (¬ hit px py → t.cell px py = s.cell px py)) ∧
      ((∃ px py, px ≤ 63 ∧ py ≤ 31 ∧ hit px py ∧ s.cell px py = true) → t.reg 15 = 1) ∧
      ((¬ ∃ px py, px ≤ 63 ∧ py ≤ 31 ∧ hit px py ∧ s.cell px py = true) → t.reg 15 = 0) ∧
      (∀ k, k ≠ 15 → t.reg k = s.reg k) ∧ t = { s with v := t.v, fb := t.fb, pc := s.pc + 2 }) ∧
    (n.toNat > 0 → s.i.toNat + n.toNat > 4096 → exec (.draw x y n) s = .fault (.outOfBounds .memRead))

/-- R153 (e): the same sprite drawn twice at the same origin restores the framebuffer. The second draw sets VF = 1 exactly when a 1 bit of
the sprite falls on a cell of the grid that was false before the first draw, which is how R152 decides it (log 8); where those cells
were all false that is R153's "at least one 1 bit inside the grid". The origin is not taken from V[0xF] here: the first draw
overwrites it. -/
def Obligations.DrawTwiceRestores : Prop :=
  ∀ (x y : Reg) (n : Nibble) (s : State), x ≠ 15 → y ≠ 15 → (n = 0 ∨ s.i.toNat + n.toNat ≤ 4096) →
    ∃ t u, exec (.draw x y n) s = .next t ∧ exec (.draw x y n) t = .next u ∧ u.fb = s.fb ∧
      (u.reg 15 = 1 ↔ ∃ px py, px ≤ 63 ∧ py ≤ 31 ∧ (s.reg x).toNat ≤ px ∧ px < (s.reg x).toNat + 8 ∧
        (s.reg y).toNat ≤ py ∧ py < (s.reg y).toNat + n.toNat ∧
        (s.byteAt (s.i.toNat + (py - (s.reg y).toNat))).getLsbD (7 - (px - (s.reg x).toNat)) = true ∧ s.cell px py = false)

/-- R153 (a), (c), (d): height 0, and an origin outside the grid, draw nothing and leave VF = 0; height 0 does so whatever I is. -/
def Obligations.DrawOffTheGridDrawsNothing : Prop :=
  ∀ (x y : Reg) (n : Nibble) (s : State),
    (n = 0 ∨ (s.i.toNat + n.toNat ≤ 4096 ∧ (64 ≤ (s.reg x).toNat ∨ 32 ≤ (s.reg y).toNat))) →
    ∃ t, exec (.draw x y n) s = .next t ∧ t.fb = s.fb ∧ t.reg 15 = 0

/-! ### Timers and keys (46_timer_key.md) -/

/-- R160, R161, R162: GetDelay reads DT before the tick, SetDelay and SetSound write the register's value; with the values at the end of
the step, after the tick, and the step that beeps (R88, R89). The outcome field that holds the beep is the model's own (log 1). -/
def Obligations.TimerInstructions : Prop :=
  ∀ (x : Reg) (s : State),
    decode ((0xF#4 ++ (BitVec.ofFin x : BitVec 4) : BitVec 8) ++ 0x07#8 : BitVec 16) = .ok (.getDelay x) ∧
    decode ((0xF#4 ++ (BitVec.ofFin x : BitVec 4) : BitVec 8) ++ 0x15#8 : BitVec 16) = .ok (.setDelay x) ∧
    decode ((0xF#4 ++ (BitVec.ofFin x : BitVec 4) : BitVec 8) ++ 0x18#8 : BitVec 16) = .ok (.setSound x) ∧
    (∃ t, exec (.getDelay x) s = .next t ∧ t.reg x = s.dt ∧ (∀ k, k ≠ x → t.reg k = s.reg k) ∧
      t = { s with v := t.v, pc := s.pc + 2 } ∧ (tick t).dt.toNat = s.dt.toNat - 1) ∧
    (exec (.setDelay x) s = .next { s with dt := s.reg x, pc := s.pc + 2 } ∧
      (tick { s with dt := s.reg x, pc := s.pc + 2 }).dt.toNat = (s.reg x).toNat - 1) ∧
    (exec (.setSound x) s = .next { s with st := s.reg x, pc := s.pc + 2 } ∧
      (tick { s with st := s.reg x, pc := s.pc + 2 }).st.toNat = (s.reg x).toNat - 1 ∧
      ((tick { s with st := s.reg x, pc := s.pc + 2 }).outcome = .beeped ↔ s.reg x = 1))

/-- R163: with no key held nothing changes, pc neither; with keys held V[X] gets the least of them and pc advances. -/
def Obligations.BlockingGetKeyWaitsOrTakesTheLeast : Prop :=
  ∀ (x : Reg) (s : State),
    decode ((0xF#4 ++ (BitVec.ofFin x : BitVec 4) : BitVec 8) ++ 0x0A#8 : BitVec 16) = .ok (.blockingGetKey x) ∧
    ((∀ k : Reg, s.keyHeld k = false) → exec (.blockingGetKey x) s = .next s) ∧
    (∀ k : Reg, s.keyHeld k = true → (∀ j : Reg, j.val < k.val → s.keyHeld j = false) →
      ∃ t, exec (.blockingGetKey x) s = .next t ∧ (t.reg x).toNat = k.val ∧ (∀ r, r ≠ x → t.reg r = s.reg r) ∧
        t = { s with v := t.v, pc := s.pc + 2 })

/-- R163 (a), (d): while no key is held the machine repeats wait steps for ever: every number of steps completes, and leaves all but the
timers and the outcome as it was; the timers have counted the steps. The outcome field is the model's own (log 1), the
byte order of the word at pc the spec's general knowledge (R42, log 13). -/
def Obligations.WaitingRepeatsForEver : Prop :=
  ∀ (x : Reg) (s : State), s.pc.toNat + 2 ≤ 4096 →
    decode (s.byteAt s.pc.toNat ++ s.byteAt (s.pc.toNat + 1)) = .ok (.blockingGetKey x) → (∀ k : Reg, s.keyHeld k = false) →
    ∀ n, s.SafeFor n ∧ ∀ t, Host.Core.run Sys2Proof.core n s = .next t →
      t.dt.toNat = s.dt.toNat - n ∧ t.st.toNat = s.st.toNat - n ∧ t = { s with dt := t.dt, st := t.st, outcome := t.outcome }

/-! ### What an instruction leaves unchanged (R24) -/

/-- Memory: when an instruction completes, every byte outside the ones StoreBCD and RegisterDump store at I reads as before, for every
other instruction every byte. -/
def Obligations.OnlyStoresChangeMemory : Prop :=
  ∀ (i : Instr) (s t : State), exec i s = .next t → ∀ a,
    (match i with
      | .storeBCD _ => a < s.i.toNat ∨ s.i.toNat + 3 ≤ a
      | .registerDump x => a < s.i.toNat ∨ s.i.toNat + x.val + 1 ≤ a
      | _ => True) → t.byteAt a = s.byteAt a

/-- Registers: when an instruction completes, every V register but its destinations is unchanged; the destinations are X, V[0xF] for the
six flag-setting instructions, and V[0]..V[X] for RegisterLoad. -/
def Obligations.OnlyDestinationsChangeRegisters : Prop :=
  ∀ (i : Instr) (s t : State), exec i s = .next t → ∀ k : Reg,
    (match i with
      | .setConst x _ | .addConst x _ | .random x _ => k ≠ x
      | .set x _ | .or x _ | .and x _ | .xor x _ => k ≠ x
      | .addWithCarry x _ | .subWithBorrow x _ | .shiftRight x _ | .reverseSub x _ | .shiftLeft x _ => k ≠ x ∧ k ≠ 15
      | .draw _ _ _ => k ≠ 15
      | .getDelay x | .blockingGetKey x => k ≠ x
      | .registerLoad x => x.val < k.val
      | _ => True) → t.reg k = s.reg k

/-- The special registers and the rest: when an instruction completes, I, SP and the stack, DT, ST and the framebuffer change only by the
instructions R24 gives as their writers, and the keypad by none. The clauses on the model's own two fields are the model's: the count of
random bytes taken changes only by Random (log 2), the outcome field by no instruction, since the tick writes it (log 1). -/
def Obligations.OnlyWritersChangeSpecialRegisters : Prop :=
  ∀ (i : Instr) (s t : State), exec i s = .next t →
    (t.i ≠ s.i → ∃ addr x, i = .setAddressRegister addr ∨ i = .addToAddressRegister x ∨ i = .setAddressRegisterToSpriteFor x) ∧
    (t.sp ≠ s.sp → i = .returnFromSub ∨ ∃ addr, i = .callSub addr) ∧
    (∀ k : Fin 16, t.slot k ≠ s.slot k → k.val = s.sp.val ∧ ∃ addr, i = .callSub addr) ∧
    (t.dt ≠ s.dt → ∃ x, i = .setDelay x) ∧
    (t.st ≠ s.st → ∃ x, i = .setSound x) ∧
    (t.fb ≠ s.fb → i = .clearScreen ∨ ∃ x y n, i = .draw x y n) ∧
    (t.draws ≠ s.draws → ∃ x nn, i = .random x nn) ∧
    t.keys = s.keys ∧ t.outcome = s.outcome

/-- R12: the six flag-setting instructions leave 0x00 or 0x01 in V[0xF] on every execution; no other instruction changes V[0xF] unless it
is its destination X or lies in the range of RegisterLoad. -/
def Obligations.FlagWritersAreExactlySix : Prop :=
  ∀ (i : Instr) (s t : State), exec i s = .next t →
    match i with
    | .addWithCarry _ _ | .subWithBorrow _ _ | .reverseSub _ _ | .shiftRight _ _ | .shiftLeft _ _ | .draw _ _ _ =>
      t.reg 15 = 0 ∨ t.reg 15 = 1
    | .setConst x _ | .addConst x _ | .random x _ => x ≠ 15 → t.reg 15 = s.reg 15
    | .set x _ | .or x _ | .and x _ | .xor x _ => x ≠ 15 → t.reg 15 = s.reg 15
    | .getDelay x | .blockingGetKey x | .registerLoad x => x ≠ 15 → t.reg 15 = s.reg 15
    | _ => t.reg 15 = s.reg 15

/-- R90, R131: only Random reads the random byte. For every other instruction the count of bytes taken passes through unread. The count
is the model's own (log 2). -/
def Obligations.OnlyRandomReadsTheRandomByte : Prop :=
  ∀ (i : Instr) (s : State) (n : Nat), (∀ x nn, i ≠ .random x nn) →
    (∀ t, exec i s = .next t → exec i { s with draws := n } = .next { t with draws := n }) ∧
    (∀ f, exec i s = .fault f → exec i { s with draws := n } = .fault f)

/-- R21, R24: only SkipIfKey, SkipIfNotKey and BlockingGetKey read the keypad. For every other instruction the flags pass through unread. -/
def Obligations.OnlyKeyInstructionsReadTheKeypad : Prop :=
  ∀ (i : Instr) (s : State) (keys : Vector Bool 16),
    (∀ x, i ≠ .skipIfKey x ∧ i ≠ .skipIfNotKey x ∧ i ≠ .blockingGetKey x) →
    (∀ t, exec i s = .next t → exec i { s with keys := keys } = .next { t with keys := keys }) ∧
    (∀ f, exec i s = .fault f → exec i { s with keys := keys } = .fault f)

/-- R19, R24: no instruction reads ST. SetSound gives the same state whatever ST was, every other instruction passes ST through
unread. -/
def Obligations.NoInstructionReadsTheSoundTimer : Prop :=
  ∀ (i : Instr) (s : State) (b : Byte),
    (∀ x, exec (.setSound x) { s with st := b } = exec (.setSound x) s) ∧
    ((∀ x, i ≠ .setSound x) → ∀ t, exec i s = .next t → exec i { s with st := b } = .next { t with st := b }) ∧
    (∀ f, exec i s = .fault f → exec i { s with st := b } = .fault f)

/-! ### Reset, the host and the invariants -/

/-- R30: the state after Reset, element by element, for the model's FONT (the font bytes themselves are log 3). -/
def Obligations.ResetIsAsTabulated : Prop :=
  (∀ a, a < 4096 → State.reset.byteAt a = if h : a < 80 then fontTable[a] else 0) ∧
  (∀ x, State.reset.reg x = 0) ∧ State.reset.i = 0 ∧ State.reset.pc = 0x200 ∧ (∀ k, State.reset.slot k = 0) ∧
  State.reset.sp.val = 0 ∧ State.reset.dt = 0 ∧ State.reset.st = 0 ∧ (∀ px py, State.reset.cell px py = false) ∧
  (∀ k, State.reset.keyHeld k = false)

/-- R190: Reset, with any 80 font bytes, from any state: "always produces the same state (given the same FONT parameter)", element by
element. The model's own two fields: the outcome is Continue and the count of random bytes goes on (log 1, log 2). -/
def Obligations.HostResetFromAnyState : Prop :=
  ∀ (font : Vector Byte 80) (s : State) (r : State), r = afterHostOp (.reset font) s →
    (∀ a, r.byteAt a = if h : a < 80 then font[a] else 0) ∧
    (∀ x, r.reg x = 0) ∧ r.i = 0 ∧ r.pc = 0x200 ∧ (∀ k, r.slot k = 0) ∧ r.sp.val = 0 ∧ r.dt = 0 ∧ r.st = 0 ∧
    (∀ px py, r.cell px py = false) ∧ (∀ k, r.keyHeld k = false) ∧ r.outcome = .cont ∧ r.draws = s.draws ∧
    hostReset fontTable s = { State.reset with draws := s.draws }

/-- R193: LoadProgram copies up to 3584 bytes to 0x200 and changes nothing else; a longer sequence is TooLarge and changes nothing. -/
def Obligations.LoadProgramCopiesTheBytes : Prop :=
  ∀ (bytes : List Byte) (s : State),
    (bytes.length ≤ 3584 → ∃ t, loadProgram bytes s = .ok t ∧ afterHostOp (.loadProgram bytes) s = t ∧
      (∀ k, (h : k < bytes.length) → t.byteAt (0x200 + k) = bytes[k]) ∧
      (∀ a, a < 0x200 ∨ 0x200 + bytes.length ≤ a → t.byteAt a = s.byteAt a) ∧ t = { s with mem := t.mem }) ∧
    (bytes.length > 3584 → loadProgram bytes s = .error .tooLarge ∧ afterHostOp (.loadProgram bytes) s = s)

/-- R183: SetKeys overwrites all 16 flags and nothing else; ReadFramebuffer gives the 2048 cells, cell (x, y) at index x + y*64, and
changes nothing; Step is the executor's step, and reports the outcome from the field that holds it, the model's own (log 1). -/
def Obligations.HostReadsAndWritesAsListed : Prop :=
  ∀ (keys : Vector Bool 16) (s : State),
    (∀ k : Reg, (afterHostOp (.setKeys keys) s).keyHeld k = keys[k.val]) ∧
    afterHostOp (.setKeys keys) s = { s with keys := (afterHostOp (.setKeys keys) s).keys } ∧
    (readFramebuffer s).length = 2048 ∧
    (∀ px py, px ≤ 63 → py ≤ 31 → (readFramebuffer s)[px + py * 64]? = some (s.cell px py)) ∧
    afterHostOp .readFramebuffer s = s ∧
    (∀ t, step s = .next t → hostStep s = (t, .completed t.outcome) ∧ afterHostOp .step s = t)

/-- The invariant holds at reset. -/
def Obligations.InvariantHoldsAtReset : Prop := State.reset.Inv

/-- R32 as an inductive invariant: from every state that meets it, not only reachable ones, a step gives a state that meets it. The
canonical form of memory and the bound on saved return addresses are the model's own clauses (log 4). -/
def Obligations.StepKeepsTheInvariant : Prop := ∀ s t : State, s.Inv → step s = .next t → t.Inv

/-- R32: the invariants hold in every state reachable from Reset, with any FONT, by steps and host operations in any order; V[0xF] may hold
any byte in one. -/
def Obligations.ReachableStatesKeepTheirRanges : Prop :=
  (∀ s : State, Reachable s → s.sp.val ≤ 16 ∧ s.i.toNat ≤ 0x0FFF ∧ s.pc.toNat ≤ 0x10FE ∧
    (∀ x, (s.reg x).toNat ≤ 0xFF) ∧ s.dt.toNat ≤ 0xFF ∧ s.st.toNat ≤ 0xFF) ∧
  (∀ b : Byte, ∃ s : State, Reachable s ∧ s.reg 15 = b)

/-- R44: "Because I <= 0xFFF always, the first byte of a data access is always in range": a data access of one byte never faults in a
reachable state. -/
def Obligations.FirstDataByteIsAlwaysInRange : Prop :=
  ∀ (s : State), Reachable s →
    (∃ t, exec (.registerDump 0) s = .next t) ∧ (∃ t, exec (.registerLoad 0) s = .next t) ∧
    ∀ x y, ∃ t, exec (.draw x y 1) s = .next t

/-- Equal memories are equal data: two canonical memories that read the same at every address are the same list. The model's own form,
log 4. -/
def Obligations.EqualBytesAreEqualMemories : Prop :=
  ∀ m m' : Memory, m.wf → m'.wf → (∀ a, a < 4096 → m.readByte a = m'.readByte a) → m = m'

/-- R199: in a state that has ended well (a Jump to itself with both timers 0) every step completes and changes nothing; the outcome, the
model's own field (log 1), becomes Continue. The end of a run is R199's proposal (log 17). -/
def Obligations.EndedRunIsAFixedPoint : Prop :=
  ∀ s : State, s.EndedWell → step s = .next { s with outcome := .cont } ∧
    ∀ n, s.SafeFor n ∧ (s.outcome = .cont → Host.Core.run Sys2Proof.core n s = .next s)
end

