-- ==== Sys2Proof/Laws/State.lean ====
section
/-! SUPPORT. One lemma per element and update of the state, each true by unfolding; the register file and the stack read back what was
written. -/

namespace Sys2Proof.Machine.State

/-! ### setReg -/

@[simp] theorem setReg_mem (s : State) (x : Reg) (b : Byte) : (s.setReg x b).mem = s.mem := rfl
@[simp] theorem setReg_v (s : State) (x : Reg) (b : Byte) : (s.setReg x b).v = s.v.set x.val b := rfl
@[simp] theorem setReg_i (s : State) (x : Reg) (b : Byte) : (s.setReg x b).i = s.i := rfl
@[simp] theorem setReg_pc (s : State) (x : Reg) (b : Byte) : (s.setReg x b).pc = s.pc := rfl
@[simp] theorem setReg_stack (s : State) (x : Reg) (b : Byte) : (s.setReg x b).stack = s.stack := rfl
@[simp] theorem setReg_sp (s : State) (x : Reg) (b : Byte) : (s.setReg x b).sp = s.sp := rfl
@[simp] theorem setReg_dt (s : State) (x : Reg) (b : Byte) : (s.setReg x b).dt = s.dt := rfl
@[simp] theorem setReg_st (s : State) (x : Reg) (b : Byte) : (s.setReg x b).st = s.st := rfl
@[simp] theorem setReg_fb (s : State) (x : Reg) (b : Byte) : (s.setReg x b).fb = s.fb := rfl
@[simp] theorem setReg_keys (s : State) (x : Reg) (b : Byte) : (s.setReg x b).keys = s.keys := rfl
@[simp] theorem setReg_outcome (s : State) (x : Reg) (b : Byte) : (s.setReg x b).outcome = s.outcome := rfl
@[simp] theorem setReg_draws (s : State) (x : Reg) (b : Byte) : (s.setReg x b).draws = s.draws := rfl
@[simp] theorem setReg_slot (s : State) (x : Reg) (b : Byte) (j : Fin 16) : (s.setReg x b).slot j = s.slot j := rfl
@[simp] theorem setReg_keyHeld (s : State) (x : Reg) (b : Byte) (j : Reg) : (s.setReg x b).keyHeld j = s.keyHeld j := rfl
@[simp] theorem setReg_byteAt (s : State) (x : Reg) (b : Byte) (a : Nat) : (s.setReg x b).byteAt a = s.byteAt a := rfl
@[simp] theorem setReg_cell (s : State) (x : Reg) (b : Byte) (px py : Nat) : (s.setReg x b).cell px py = s.cell px py := rfl
@[simp] theorem setReg_base (s : State) (x : Reg) (b : Byte) : (s.setReg x b).base = s.base := rfl

/-! ### setI -/

@[simp] theorem setI_mem (s : State) (w : Word) : (s.setI w).mem = s.mem := rfl
@[simp] theorem setI_v (s : State) (w : Word) : (s.setI w).v = s.v := rfl
@[simp] theorem setI_i (s : State) (w : Word) : (s.setI w).i = w := rfl
@[simp] theorem setI_pc (s : State) (w : Word) : (s.setI w).pc = s.pc := rfl
@[simp] theorem setI_stack (s : State) (w : Word) : (s.setI w).stack = s.stack := rfl
@[simp] theorem setI_sp (s : State) (w : Word) : (s.setI w).sp = s.sp := rfl
@[simp] theorem setI_dt (s : State) (w : Word) : (s.setI w).dt = s.dt := rfl
@[simp] theorem setI_st (s : State) (w : Word) : (s.setI w).st = s.st := rfl
@[simp] theorem setI_fb (s : State) (w : Word) : (s.setI w).fb = s.fb := rfl
@[simp] theorem setI_keys (s : State) (w : Word) : (s.setI w).keys = s.keys := rfl
@[simp] theorem setI_outcome (s : State) (w : Word) : (s.setI w).outcome = s.outcome := rfl
@[simp] theorem setI_draws (s : State) (w : Word) : (s.setI w).draws = s.draws := rfl
@[simp] theorem setI_reg (s : State) (w : Word) (y : Reg) : (s.setI w).reg y = s.reg y := rfl
@[simp] theorem setI_slot (s : State) (w : Word) (j : Fin 16) : (s.setI w).slot j = s.slot j := rfl
@[simp] theorem setI_keyHeld (s : State) (w : Word) (j : Reg) : (s.setI w).keyHeld j = s.keyHeld j := rfl
@[simp] theorem setI_byteAt (s : State) (w : Word) (a : Nat) : (s.setI w).byteAt a = s.byteAt a := rfl
@[simp] theorem setI_cell (s : State) (w : Word) (px py : Nat) : (s.setI w).cell px py = s.cell px py := rfl

/-! ### setPc -/

@[simp] theorem setPc_mem (s : State) (w : Word) : (s.setPc w).mem = s.mem := rfl
@[simp] theorem setPc_v (s : State) (w : Word) : (s.setPc w).v = s.v := rfl
@[simp] theorem setPc_i (s : State) (w : Word) : (s.setPc w).i = s.i := rfl
@[simp] theorem setPc_pc (s : State) (w : Word) : (s.setPc w).pc = w := rfl
@[simp] theorem setPc_stack (s : State) (w : Word) : (s.setPc w).stack = s.stack := rfl
@[simp] theorem setPc_sp (s : State) (w : Word) : (s.setPc w).sp = s.sp := rfl
@[simp] theorem setPc_dt (s : State) (w : Word) : (s.setPc w).dt = s.dt := rfl
@[simp] theorem setPc_st (s : State) (w : Word) : (s.setPc w).st = s.st := rfl
@[simp] theorem setPc_fb (s : State) (w : Word) : (s.setPc w).fb = s.fb := rfl
@[simp] theorem setPc_keys (s : State) (w : Word) : (s.setPc w).keys = s.keys := rfl
@[simp] theorem setPc_outcome (s : State) (w : Word) : (s.setPc w).outcome = s.outcome := rfl
@[simp] theorem setPc_draws (s : State) (w : Word) : (s.setPc w).draws = s.draws := rfl
@[simp] theorem setPc_reg (s : State) (w : Word) (y : Reg) : (s.setPc w).reg y = s.reg y := rfl
@[simp] theorem setPc_slot (s : State) (w : Word) (j : Fin 16) : (s.setPc w).slot j = s.slot j := rfl
@[simp] theorem setPc_keyHeld (s : State) (w : Word) (j : Reg) : (s.setPc w).keyHeld j = s.keyHeld j := rfl
@[simp] theorem setPc_byteAt (s : State) (w : Word) (a : Nat) : (s.setPc w).byteAt a = s.byteAt a := rfl
@[simp] theorem setPc_cell (s : State) (w : Word) (px py : Nat) : (s.setPc w).cell px py = s.cell px py := rfl
@[simp] theorem setPc_base (s : State) (w : Word) : (s.setPc w).base = s.base := rfl

/-! ### setMem -/

@[simp] theorem setMem_mem (s : State) (m : Memory) : (s.setMem m).mem = m := rfl
@[simp] theorem setMem_v (s : State) (m : Memory) : (s.setMem m).v = s.v := rfl
@[simp] theorem setMem_i (s : State) (m : Memory) : (s.setMem m).i = s.i := rfl
@[simp] theorem setMem_pc (s : State) (m : Memory) : (s.setMem m).pc = s.pc := rfl
@[simp] theorem setMem_stack (s : State) (m : Memory) : (s.setMem m).stack = s.stack := rfl
@[simp] theorem setMem_sp (s : State) (m : Memory) : (s.setMem m).sp = s.sp := rfl
@[simp] theorem setMem_dt (s : State) (m : Memory) : (s.setMem m).dt = s.dt := rfl
@[simp] theorem setMem_st (s : State) (m : Memory) : (s.setMem m).st = s.st := rfl
@[simp] theorem setMem_fb (s : State) (m : Memory) : (s.setMem m).fb = s.fb := rfl
@[simp] theorem setMem_keys (s : State) (m : Memory) : (s.setMem m).keys = s.keys := rfl
@[simp] theorem setMem_outcome (s : State) (m : Memory) : (s.setMem m).outcome = s.outcome := rfl
@[simp] theorem setMem_draws (s : State) (m : Memory) : (s.setMem m).draws = s.draws := rfl
@[simp] theorem setMem_reg (s : State) (m : Memory) (y : Reg) : (s.setMem m).reg y = s.reg y := rfl
@[simp] theorem setMem_slot (s : State) (m : Memory) (j : Fin 16) : (s.setMem m).slot j = s.slot j := rfl
@[simp] theorem setMem_keyHeld (s : State) (m : Memory) (j : Reg) : (s.setMem m).keyHeld j = s.keyHeld j := rfl
@[simp] theorem setMem_cell (s : State) (m : Memory) (px py : Nat) : (s.setMem m).cell px py = s.cell px py := rfl
@[simp] theorem setMem_base (s : State) (m : Memory) : (s.setMem m).base = s.base := rfl

/-! ### setSlot -/

@[simp] theorem setSlot_mem (s : State) (k : Fin 16) (w : Word) : (s.setSlot k w).mem = s.mem := rfl
@[simp] theorem setSlot_v (s : State) (k : Fin 16) (w : Word) : (s.setSlot k w).v = s.v := rfl
@[simp] theorem setSlot_i (s : State) (k : Fin 16) (w : Word) : (s.setSlot k w).i = s.i := rfl
@[simp] theorem setSlot_pc (s : State) (k : Fin 16) (w : Word) : (s.setSlot k w).pc = s.pc := rfl
@[simp] theorem setSlot_stack (s : State) (k : Fin 16) (w : Word) : (s.setSlot k w).stack = s.stack.set k.val w := rfl
@[simp] theorem setSlot_sp (s : State) (k : Fin 16) (w : Word) : (s.setSlot k w).sp = s.sp := rfl
@[simp] theorem setSlot_dt (s : State) (k : Fin 16) (w : Word) : (s.setSlot k w).dt = s.dt := rfl
@[simp] theorem setSlot_st (s : State) (k : Fin 16) (w : Word) : (s.setSlot k w).st = s.st := rfl
@[simp] theorem setSlot_fb (s : State) (k : Fin 16) (w : Word) : (s.setSlot k w).fb = s.fb := rfl
@[simp] theorem setSlot_keys (s : State) (k : Fin 16) (w : Word) : (s.setSlot k w).keys = s.keys := rfl
@[simp] theorem setSlot_outcome (s : State) (k : Fin 16) (w : Word) : (s.setSlot k w).outcome = s.outcome := rfl
@[simp] theorem setSlot_draws (s : State) (k : Fin 16) (w : Word) : (s.setSlot k w).draws = s.draws := rfl
@[simp] theorem setSlot_reg (s : State) (k : Fin 16) (w : Word) (y : Reg) : (s.setSlot k w).reg y = s.reg y := rfl
@[simp] theorem setSlot_keyHeld (s : State) (k : Fin 16) (w : Word) (j : Reg) : (s.setSlot k w).keyHeld j = s.keyHeld j := rfl
@[simp] theorem setSlot_byteAt (s : State) (k : Fin 16) (w : Word) (a : Nat) : (s.setSlot k w).byteAt a = s.byteAt a := rfl
@[simp] theorem setSlot_cell (s : State) (k : Fin 16) (w : Word) (px py : Nat) : (s.setSlot k w).cell px py = s.cell px py := rfl
@[simp] theorem setSlot_base (s : State) (k : Fin 16) (w : Word) : (s.setSlot k w).base = s.base := rfl

/-! ### setSp -/

@[simp] theorem setSp_mem (s : State) (n : Fin 17) : (s.setSp n).mem = s.mem := rfl
@[simp] theorem setSp_v (s : State) (n : Fin 17) : (s.setSp n).v = s.v := rfl
@[simp] theorem setSp_i (s : State) (n : Fin 17) : (s.setSp n).i = s.i := rfl
@[simp] theorem setSp_pc (s : State) (n : Fin 17) : (s.setSp n).pc = s.pc := rfl
@[simp] theorem setSp_stack (s : State) (n : Fin 17) : (s.setSp n).stack = s.stack := rfl
@[simp] theorem setSp_sp (s : State) (n : Fin 17) : (s.setSp n).sp = n := rfl
@[simp] theorem setSp_dt (s : State) (n : Fin 17) : (s.setSp n).dt = s.dt := rfl
@[simp] theorem setSp_st (s : State) (n : Fin 17) : (s.setSp n).st = s.st := rfl
@[simp] theorem setSp_fb (s : State) (n : Fin 17) : (s.setSp n).fb = s.fb := rfl
@[simp] theorem setSp_keys (s : State) (n : Fin 17) : (s.setSp n).keys = s.keys := rfl
@[simp] theorem setSp_outcome (s : State) (n : Fin 17) : (s.setSp n).outcome = s.outcome := rfl
@[simp] theorem setSp_draws (s : State) (n : Fin 17) : (s.setSp n).draws = s.draws := rfl
@[simp] theorem setSp_reg (s : State) (n : Fin 17) (y : Reg) : (s.setSp n).reg y = s.reg y := rfl
@[simp] theorem setSp_slot (s : State) (n : Fin 17) (j : Fin 16) : (s.setSp n).slot j = s.slot j := rfl
@[simp] theorem setSp_keyHeld (s : State) (n : Fin 17) (j : Reg) : (s.setSp n).keyHeld j = s.keyHeld j := rfl
@[simp] theorem setSp_byteAt (s : State) (n : Fin 17) (a : Nat) : (s.setSp n).byteAt a = s.byteAt a := rfl
@[simp] theorem setSp_cell (s : State) (n : Fin 17) (px py : Nat) : (s.setSp n).cell px py = s.cell px py := rfl
@[simp] theorem setSp_base (s : State) (n : Fin 17) : (s.setSp n).base = s.base := rfl

/-! ### setDt -/

@[simp] theorem setDt_mem (s : State) (b : Byte) : (s.setDt b).mem = s.mem := rfl
@[simp] theorem setDt_v (s : State) (b : Byte) : (s.setDt b).v = s.v := rfl
@[simp] theorem setDt_i (s : State) (b : Byte) : (s.setDt b).i = s.i := rfl
@[simp] theorem setDt_pc (s : State) (b : Byte) : (s.setDt b).pc = s.pc := rfl
@[simp] theorem setDt_stack (s : State) (b : Byte) : (s.setDt b).stack = s.stack := rfl
@[simp] theorem setDt_sp (s : State) (b : Byte) : (s.setDt b).sp = s.sp := rfl
@[simp] theorem setDt_dt (s : State) (b : Byte) : (s.setDt b).dt = b := rfl
@[simp] theorem setDt_st (s : State) (b : Byte) : (s.setDt b).st = s.st := rfl
@[simp] theorem setDt_fb (s : State) (b : Byte) : (s.setDt b).fb = s.fb := rfl
@[simp] theorem setDt_keys (s : State) (b : Byte) : (s.setDt b).keys = s.keys := rfl
@[simp] theorem setDt_outcome (s : State) (b : Byte) : (s.setDt b).outcome = s.outcome := rfl
@[simp] theorem setDt_draws (s : State) (b : Byte) : (s.setDt b).draws = s.draws := rfl
@[simp] theorem setDt_reg (s : State) (b : Byte) (y : Reg) : (s.setDt b).reg y = s.reg y := rfl
@[simp] theorem setDt_slot (s : State) (b : Byte) (j : Fin 16) : (s.setDt b).slot j = s.slot j := rfl
@[simp] theorem setDt_keyHeld (s : State) (b : Byte) (j : Reg) : (s.setDt b).keyHeld j = s.keyHeld j := rfl
@[simp] theorem setDt_byteAt (s : State) (b : Byte) (a : Nat) : (s.setDt b).byteAt a = s.byteAt a := rfl
@[simp] theorem setDt_cell (s : State) (b : Byte) (px py : Nat) : (s.setDt b).cell px py = s.cell px py := rfl
@[simp] theorem setDt_base (s : State) (b : Byte) : (s.setDt b).base = s.base := rfl

/-! ### setSt -/

@[simp] theorem setSt_mem (s : State) (b : Byte) : (s.setSt b).mem = s.mem := rfl
@[simp] theorem setSt_v (s : State) (b : Byte) : (s.setSt b).v = s.v := rfl
@[simp] theorem setSt_i (s : State) (b : Byte) : (s.setSt b).i = s.i := rfl
@[simp] theorem setSt_pc (s : State) (b : Byte) : (s.setSt b).pc = s.pc := rfl
@[simp] theorem setSt_stack (s : State) (b : Byte) : (s.setSt b).stack = s.stack := rfl
@[simp] theorem setSt_sp (s : State) (b : Byte) : (s.setSt b).sp = s.sp := rfl
@[simp] theorem setSt_dt (s : State) (b : Byte) : (s.setSt b).dt = s.dt := rfl
@[simp] theorem setSt_st (s : State) (b : Byte) : (s.setSt b).st = b := rfl
@[simp] theorem setSt_fb (s : State) (b : Byte) : (s.setSt b).fb = s.fb := rfl
@[simp] theorem setSt_keys (s : State) (b : Byte) : (s.setSt b).keys = s.keys := rfl
@[simp] theorem setSt_outcome (s : State) (b : Byte) : (s.setSt b).outcome = s.outcome := rfl
@[simp] theorem setSt_draws (s : State) (b : Byte) : (s.setSt b).draws = s.draws := rfl
@[simp] theorem setSt_reg (s : State) (b : Byte) (y : Reg) : (s.setSt b).reg y = s.reg y := rfl
@[simp] theorem setSt_slot (s : State) (b : Byte) (j : Fin 16) : (s.setSt b).slot j = s.slot j := rfl
@[simp] theorem setSt_keyHeld (s : State) (b : Byte) (j : Reg) : (s.setSt b).keyHeld j = s.keyHeld j := rfl
@[simp] theorem setSt_byteAt (s : State) (b : Byte) (a : Nat) : (s.setSt b).byteAt a = s.byteAt a := rfl
@[simp] theorem setSt_cell (s : State) (b : Byte) (px py : Nat) : (s.setSt b).cell px py = s.cell px py := rfl
@[simp] theorem setSt_base (s : State) (b : Byte) : (s.setSt b).base = s.base := rfl

/-! ### setFb -/

@[simp] theorem setFb_mem (s : State) (fb : Framebuffer) : (s.setFb fb).mem = s.mem := rfl
@[simp] theorem setFb_v (s : State) (fb : Framebuffer) : (s.setFb fb).v = s.v := rfl
@[simp] theorem setFb_i (s : State) (fb : Framebuffer) : (s.setFb fb).i = s.i := rfl
@[simp] theorem setFb_pc (s : State) (fb : Framebuffer) : (s.setFb fb).pc = s.pc := rfl
@[simp] theorem setFb_stack (s : State) (fb : Framebuffer) : (s.setFb fb).stack = s.stack := rfl
@[simp] theorem setFb_sp (s : State) (fb : Framebuffer) : (s.setFb fb).sp = s.sp := rfl
@[simp] theorem setFb_dt (s : State) (fb : Framebuffer) : (s.setFb fb).dt = s.dt := rfl
@[simp] theorem setFb_st (s : State) (fb : Framebuffer) : (s.setFb fb).st = s.st := rfl
@[simp] theorem setFb_fb (s : State) (fb : Framebuffer) : (s.setFb fb).fb = fb := rfl
@[simp] theorem setFb_keys (s : State) (fb : Framebuffer) : (s.setFb fb).keys = s.keys := rfl
@[simp] theorem setFb_outcome (s : State) (fb : Framebuffer) : (s.setFb fb).outcome = s.outcome := rfl
@[simp] theorem setFb_draws (s : State) (fb : Framebuffer) : (s.setFb fb).draws = s.draws := rfl
@[simp] theorem setFb_reg (s : State) (fb : Framebuffer) (y : Reg) : (s.setFb fb).reg y = s.reg y := rfl
@[simp] theorem setFb_slot (s : State) (fb : Framebuffer) (j : Fin 16) : (s.setFb fb).slot j = s.slot j := rfl
@[simp] theorem setFb_keyHeld (s : State) (fb : Framebuffer) (j : Reg) : (s.setFb fb).keyHeld j = s.keyHeld j := rfl
@[simp] theorem setFb_byteAt (s : State) (fb : Framebuffer) (a : Nat) : (s.setFb fb).byteAt a = s.byteAt a := rfl
@[simp] theorem setFb_base (s : State) (fb : Framebuffer) : (s.setFb fb).base = s.base := rfl

/-! ### setKeyFlags -/

@[simp] theorem setKeyFlags_mem (s : State) (keys : Vector Bool 16) : (s.setKeyFlags keys).mem = s.mem := rfl
@[simp] theorem setKeyFlags_v (s : State) (keys : Vector Bool 16) : (s.setKeyFlags keys).v = s.v := rfl
@[simp] theorem setKeyFlags_i (s : State) (keys : Vector Bool 16) : (s.setKeyFlags keys).i = s.i := rfl
@[simp] theorem setKeyFlags_pc (s : State) (keys : Vector Bool 16) : (s.setKeyFlags keys).pc = s.pc := rfl
@[simp] theorem setKeyFlags_stack (s : State) (keys : Vector Bool 16) : (s.setKeyFlags keys).stack = s.stack := rfl
@[simp] theorem setKeyFlags_sp (s : State) (keys : Vector Bool 16) : (s.setKeyFlags keys).sp = s.sp := rfl
@[simp] theorem setKeyFlags_dt (s : State) (keys : Vector Bool 16) : (s.setKeyFlags keys).dt = s.dt := rfl
@[simp] theorem setKeyFlags_st (s : State) (keys : Vector Bool 16) : (s.setKeyFlags keys).st = s.st := rfl
@[simp] theorem setKeyFlags_fb (s : State) (keys : Vector Bool 16) : (s.setKeyFlags keys).fb = s.fb := rfl
@[simp] theorem setKeyFlags_keys (s : State) (keys : Vector Bool 16) : (s.setKeyFlags keys).keys = keys := rfl
@[simp] theorem setKeyFlags_outcome (s : State) (keys : Vector Bool 16) : (s.setKeyFlags keys).outcome = s.outcome := rfl
@[simp] theorem setKeyFlags_draws (s : State) (keys : Vector Bool 16) : (s.setKeyFlags keys).draws = s.draws := rfl
@[simp] theorem setKeyFlags_reg (s : State) (keys : Vector Bool 16) (y : Reg) : (s.setKeyFlags keys).reg y = s.reg y := rfl
@[simp] theorem setKeyFlags_slot (s : State) (keys : Vector Bool 16) (j : Fin 16) : (s.setKeyFlags keys).slot j = s.slot j := rfl
@[simp] theorem setKeyFlags_byteAt (s : State) (keys : Vector Bool 16) (a : Nat) : (s.setKeyFlags keys).byteAt a = s.byteAt a := rfl
@[simp] theorem setKeyFlags_cell (s : State) (keys : Vector Bool 16) (px py : Nat) : (s.setKeyFlags keys).cell px py = s.cell px py := rfl
@[simp] theorem setKeyFlags_base (s : State) (keys : Vector Bool 16) : (s.setKeyFlags keys).base = s.base := rfl

/-! ### setOutcome -/

@[simp] theorem setOutcome_mem (s : State) (o : CycleOutcome) : (s.setOutcome o).mem = s.mem := rfl
@[simp] theorem setOutcome_v (s : State) (o : CycleOutcome) : (s.setOutcome o).v = s.v := rfl
@[simp] theorem setOutcome_i (s : State) (o : CycleOutcome) : (s.setOutcome o).i = s.i := rfl
@[simp] theorem setOutcome_pc (s : State) (o : CycleOutcome) : (s.setOutcome o).pc = s.pc := rfl
@[simp] theorem setOutcome_stack (s : State) (o : CycleOutcome) : (s.setOutcome o).stack = s.stack := rfl
@[simp] theorem setOutcome_sp (s : State) (o : CycleOutcome) : (s.setOutcome o).sp = s.sp := rfl
@[simp] theorem setOutcome_dt (s : State) (o : CycleOutcome) : (s.setOutcome o).dt = s.dt := rfl
@[simp] theorem setOutcome_st (s : State) (o : CycleOutcome) : (s.setOutcome o).st = s.st := rfl
@[simp] theorem setOutcome_fb (s : State) (o : CycleOutcome) : (s.setOutcome o).fb = s.fb := rfl
@[simp] theorem setOutcome_keys (s : State) (o : CycleOutcome) : (s.setOutcome o).keys = s.keys := rfl
@[simp] theorem setOutcome_outcome (s : State) (o : CycleOutcome) : (s.setOutcome o).outcome = o := rfl
@[simp] theorem setOutcome_draws (s : State) (o : CycleOutcome) : (s.setOutcome o).draws = s.draws := rfl
@[simp] theorem setOutcome_reg (s : State) (o : CycleOutcome) (y : Reg) : (s.setOutcome o).reg y = s.reg y := rfl
@[simp] theorem setOutcome_slot (s : State) (o : CycleOutcome) (j : Fin 16) : (s.setOutcome o).slot j = s.slot j := rfl
@[simp] theorem setOutcome_keyHeld (s : State) (o : CycleOutcome) (j : Reg) : (s.setOutcome o).keyHeld j = s.keyHeld j := rfl
@[simp] theorem setOutcome_byteAt (s : State) (o : CycleOutcome) (a : Nat) : (s.setOutcome o).byteAt a = s.byteAt a := rfl
@[simp] theorem setOutcome_cell (s : State) (o : CycleOutcome) (px py : Nat) : (s.setOutcome o).cell px py = s.cell px py := rfl
@[simp] theorem setOutcome_base (s : State) (o : CycleOutcome) : (s.setOutcome o).base = s.base := rfl

/-! ### countDraw -/

@[simp] theorem countDraw_mem (s : State) : (s.countDraw).mem = s.mem := rfl
@[simp] theorem countDraw_v (s : State) : (s.countDraw).v = s.v := rfl
@[simp] theorem countDraw_i (s : State) : (s.countDraw).i = s.i := rfl
@[simp] theorem countDraw_pc (s : State) : (s.countDraw).pc = s.pc := rfl
@[simp] theorem countDraw_stack (s : State) : (s.countDraw).stack = s.stack := rfl
@[simp] theorem countDraw_sp (s : State) : (s.countDraw).sp = s.sp := rfl
@[simp] theorem countDraw_dt (s : State) : (s.countDraw).dt = s.dt := rfl
@[simp] theorem countDraw_st (s : State) : (s.countDraw).st = s.st := rfl
@[simp] theorem countDraw_fb (s : State) : (s.countDraw).fb = s.fb := rfl
@[simp] theorem countDraw_keys (s : State) : (s.countDraw).keys = s.keys := rfl
@[simp] theorem countDraw_outcome (s : State) : (s.countDraw).outcome = s.outcome := rfl
@[simp] theorem countDraw_draws (s : State) : (s.countDraw).draws = s.draws + 1 := rfl
@[simp] theorem countDraw_reg (s : State) (y : Reg) : (s.countDraw).reg y = s.reg y := rfl
@[simp] theorem countDraw_slot (s : State) (j : Fin 16) : (s.countDraw).slot j = s.slot j := rfl
@[simp] theorem countDraw_keyHeld (s : State) (j : Reg) : (s.countDraw).keyHeld j = s.keyHeld j := rfl
@[simp] theorem countDraw_byteAt (s : State) (a : Nat) : (s.countDraw).byteAt a = s.byteAt a := rfl
@[simp] theorem countDraw_cell (s : State) (px py : Nat) : (s.countDraw).cell px py = s.cell px py := rfl
@[simp] theorem countDraw_base (s : State) : (s.countDraw).base = s.base := rfl

/-! ### What was written is read back -/

@[simp] theorem setReg_reg (s : State) (x : Reg) (b : Byte) (y : Reg) :
    (s.setReg x b).reg y = if y = x then b else s.reg y := by
  simp only [reg, setReg, Vector.getElem_set, Fin.ext_iff, eq_comm]

theorem setReg_reg_self (s : State) (x : Reg) (b : Byte) : (s.setReg x b).reg x = b := by simp

theorem setReg_reg_ne (s : State) {x y : Reg} (b : Byte) (h : y ≠ x) : (s.setReg x b).reg y = s.reg y := by simp [h]

@[simp] theorem setSlot_slot (s : State) (k : Fin 16) (w : Word) (j : Fin 16) :
    (s.setSlot k w).slot j = if j = k then w else s.slot j := by
  simp only [slot, setSlot, Vector.getElem_set, Fin.ext_iff, eq_comm]

@[simp] theorem setMem_byteAt (s : State) (m : Memory) (a : Nat) : (s.setMem m).byteAt a = m.readByte a := rfl

@[simp] theorem setI_base (s : State) (w : Word) : (s.setI w).base = w.toNat := rfl

@[simp] theorem setFb_cell (s : State) (fb : Framebuffer) (px py : Nat) :
    (s.setFb fb).cell px py = Framebuffer.cell fb px py := rfl

@[simp] theorem setKeyFlags_keyHeld (s : State) (keys : Vector Bool 16) (k : Reg) :
    (s.setKeyFlags keys).keyHeld k = keys[k.val] := rfl

/-- Two states with the same elements, register by register and slot by slot, are the same. -/
theorem ext_of_elements {s t : State} (hm : s.mem = t.mem) (hv : ∀ x, s.reg x = t.reg x) (hi : s.i = t.i) (hp : s.pc = t.pc)
    (hs : ∀ k, s.slot k = t.slot k) (hsp : s.sp = t.sp) (hd : s.dt = t.dt) (hst : s.st = t.st) (hf : s.fb = t.fb)
    (hk : ∀ k, s.keyHeld k = t.keyHeld k) (ho : s.outcome = t.outcome) (hr : s.draws = t.draws) : s = t := by
  cases s; cases t
  simp only [State.mk.injEq]
  refine ⟨hm, Vector.ext fun k hk => hv ⟨k, hk⟩, hi, hp, Vector.ext fun k hk => hs ⟨k, hk⟩, hsp, hd, hst, hf, Vector.ext fun k hlt => hk ⟨k, hlt⟩, ho, hr⟩

/-! ### The pc operations -/

@[simp] theorem advance_mem (s : State) : (s.advance).mem = s.mem := rfl
@[simp] theorem advance_v (s : State) : (s.advance).v = s.v := rfl
@[simp] theorem advance_i (s : State) : (s.advance).i = s.i := rfl
@[simp] theorem advance_pc (s : State) : (s.advance).pc = s.pc + 2 := rfl
@[simp] theorem advance_stack (s : State) : (s.advance).stack = s.stack := rfl
@[simp] theorem advance_sp (s : State) : (s.advance).sp = s.sp := rfl
@[simp] theorem advance_dt (s : State) : (s.advance).dt = s.dt := rfl
@[simp] theorem advance_st (s : State) : (s.advance).st = s.st := rfl
@[simp] theorem advance_fb (s : State) : (s.advance).fb = s.fb := rfl
@[simp] theorem advance_keys (s : State) : (s.advance).keys = s.keys := rfl
@[simp] theorem advance_outcome (s : State) : (s.advance).outcome = s.outcome := rfl
@[simp] theorem advance_draws (s : State) : (s.advance).draws = s.draws := rfl
@[simp] theorem advance_reg (s : State) (y : Reg) : (s.advance).reg y = s.reg y := rfl
@[simp] theorem advance_slot (s : State) (j : Fin 16) : (s.advance).slot j = s.slot j := rfl
@[simp] theorem advance_keyHeld (s : State) (j : Reg) : (s.advance).keyHeld j = s.keyHeld j := rfl
@[simp] theorem advance_byteAt (s : State) (a : Nat) : (s.advance).byteAt a = s.byteAt a := rfl
@[simp] theorem advance_cell (s : State) (px py : Nat) : (s.advance).cell px py = s.cell px py := rfl
@[simp] theorem advance_base (s : State) : (s.advance).base = s.base := rfl

@[simp] theorem skipIf_mem (s : State) (c : Bool) : (s.skipIf c).mem = s.mem := rfl
@[simp] theorem skipIf_v (s : State) (c : Bool) : (s.skipIf c).v = s.v := rfl
@[simp] theorem skipIf_i (s : State) (c : Bool) : (s.skipIf c).i = s.i := rfl
@[simp] theorem skipIf_pc (s : State) (c : Bool) : (s.skipIf c).pc = if c then s.pc + 4 else s.pc + 2 := rfl
@[simp] theorem skipIf_stack (s : State) (c : Bool) : (s.skipIf c).stack = s.stack := rfl
@[simp] theorem skipIf_sp (s : State) (c : Bool) : (s.skipIf c).sp = s.sp := rfl
@[simp] theorem skipIf_dt (s : State) (c : Bool) : (s.skipIf c).dt = s.dt := rfl
@[simp] theorem skipIf_st (s : State) (c : Bool) : (s.skipIf c).st = s.st := rfl
@[simp] theorem skipIf_fb (s : State) (c : Bool) : (s.skipIf c).fb = s.fb := rfl
@[simp] theorem skipIf_keys (s : State) (c : Bool) : (s.skipIf c).keys = s.keys := rfl
@[simp] theorem skipIf_outcome (s : State) (c : Bool) : (s.skipIf c).outcome = s.outcome := rfl
@[simp] theorem skipIf_draws (s : State) (c : Bool) : (s.skipIf c).draws = s.draws := rfl
@[simp] theorem skipIf_reg (s : State) (c : Bool) (y : Reg) : (s.skipIf c).reg y = s.reg y := rfl
@[simp] theorem skipIf_slot (s : State) (c : Bool) (j : Fin 16) : (s.skipIf c).slot j = s.slot j := rfl
@[simp] theorem skipIf_keyHeld (s : State) (c : Bool) (j : Reg) : (s.skipIf c).keyHeld j = s.keyHeld j := rfl
@[simp] theorem skipIf_byteAt (s : State) (c : Bool) (a : Nat) : (s.skipIf c).byteAt a = s.byteAt a := rfl
@[simp] theorem skipIf_cell (s : State) (c : Bool) (px py : Nat) : (s.skipIf c).cell px py = s.cell px py := rfl
@[simp] theorem skipIf_base (s : State) (c : Bool) : (s.skipIf c).base = s.base := rfl

/-! ### The flag -/

@[simp] theorem setFlag_mem (s : State) (c : Bool) : (s.setFlag c).mem = s.mem := rfl
@[simp] theorem setFlag_i (s : State) (c : Bool) : (s.setFlag c).i = s.i := rfl
@[simp] theorem setFlag_pc (s : State) (c : Bool) : (s.setFlag c).pc = s.pc := rfl
@[simp] theorem setFlag_stack (s : State) (c : Bool) : (s.setFlag c).stack = s.stack := rfl
@[simp] theorem setFlag_sp (s : State) (c : Bool) : (s.setFlag c).sp = s.sp := rfl
@[simp] theorem setFlag_dt (s : State) (c : Bool) : (s.setFlag c).dt = s.dt := rfl
@[simp] theorem setFlag_st (s : State) (c : Bool) : (s.setFlag c).st = s.st := rfl
@[simp] theorem setFlag_fb (s : State) (c : Bool) : (s.setFlag c).fb = s.fb := rfl
@[simp] theorem setFlag_keys (s : State) (c : Bool) : (s.setFlag c).keys = s.keys := rfl
@[simp] theorem setFlag_outcome (s : State) (c : Bool) : (s.setFlag c).outcome = s.outcome := rfl
@[simp] theorem setFlag_draws (s : State) (c : Bool) : (s.setFlag c).draws = s.draws := rfl
@[simp] theorem setFlag_slot (s : State) (c : Bool) (j : Fin 16) : (s.setFlag c).slot j = s.slot j := rfl
@[simp] theorem setFlag_keyHeld (s : State) (c : Bool) (j : Reg) : (s.setFlag c).keyHeld j = s.keyHeld j := rfl
@[simp] theorem setFlag_byteAt (s : State) (c : Bool) (a : Nat) : (s.setFlag c).byteAt a = s.byteAt a := rfl
@[simp] theorem setFlag_cell (s : State) (c : Bool) (px py : Nat) : (s.setFlag c).cell px py = s.cell px py := rfl
@[simp] theorem setFlag_base (s : State) (c : Bool) : (s.setFlag c).base = s.base := rfl

@[simp] theorem setResultAndFlag_mem (s : State) (x : Reg) (r : Byte) (c : Bool) : (s.setResultAndFlag x r c).mem = s.mem := rfl
@[simp] theorem setResultAndFlag_i (s : State) (x : Reg) (r : Byte) (c : Bool) : (s.setResultAndFlag x r c).i = s.i := rfl
@[simp] theorem setResultAndFlag_pc (s : State) (x : Reg) (r : Byte) (c : Bool) : (s.setResultAndFlag x r c).pc = s.pc := rfl
@[simp] theorem setResultAndFlag_stack (s : State) (x : Reg) (r : Byte) (c : Bool) : (s.setResultAndFlag x r c).stack = s.stack := rfl
@[simp] theorem setResultAndFlag_sp (s : State) (x : Reg) (r : Byte) (c : Bool) : (s.setResultAndFlag x r c).sp = s.sp := rfl
@[simp] theorem setResultAndFlag_dt (s : State) (x : Reg) (r : Byte) (c : Bool) : (s.setResultAndFlag x r c).dt = s.dt := rfl
@[simp] theorem setResultAndFlag_st (s : State) (x : Reg) (r : Byte) (c : Bool) : (s.setResultAndFlag x r c).st = s.st := rfl
@[simp] theorem setResultAndFlag_fb (s : State) (x : Reg) (r : Byte) (c : Bool) : (s.setResultAndFlag x r c).fb = s.fb := rfl
@[simp] theorem setResultAndFlag_keys (s : State) (x : Reg) (r : Byte) (c : Bool) : (s.setResultAndFlag x r c).keys = s.keys := rfl
@[simp] theorem setResultAndFlag_outcome (s : State) (x : Reg) (r : Byte) (c : Bool) : (s.setResultAndFlag x r c).outcome = s.outcome := rfl
@[simp] theorem setResultAndFlag_draws (s : State) (x : Reg) (r : Byte) (c : Bool) : (s.setResultAndFlag x r c).draws = s.draws := rfl
@[simp] theorem setResultAndFlag_slot (s : State) (x : Reg) (r : Byte) (c : Bool) (j : Fin 16) : (s.setResultAndFlag x r c).slot j = s.slot j := rfl
@[simp] theorem setResultAndFlag_keyHeld (s : State) (x : Reg) (r : Byte) (c : Bool) (j : Reg) : (s.setResultAndFlag x r c).keyHeld j = s.keyHeld j := rfl
@[simp] theorem setResultAndFlag_byteAt (s : State) (x : Reg) (r : Byte) (c : Bool) (a : Nat) : (s.setResultAndFlag x r c).byteAt a = s.byteAt a := rfl
@[simp] theorem setResultAndFlag_cell (s : State) (x : Reg) (r : Byte) (c : Bool) (px py : Nat) : (s.setResultAndFlag x r c).cell px py = s.cell px py := rfl
@[simp] theorem setResultAndFlag_base (s : State) (x : Reg) (r : Byte) (c : Bool) : (s.setResultAndFlag x r c).base = s.base := rfl

@[simp] theorem setFlag_reg (s : State) (c : Bool) (y : Reg) :
    (s.setFlag c).reg y = if y = flagReg then flagByte c else s.reg y := by simp [setFlag]

/-- Result first, flag last (R86): V[0xF] ends holding the flag, whatever X is. -/
@[simp] theorem setResultAndFlag_reg (s : State) (x : Reg) (r : Byte) (c : Bool) (y : Reg) :
    (s.setResultAndFlag x r c).reg y = if y = flagReg then flagByte c else if y = x then r else s.reg y := by
  simp [setResultAndFlag]

/-! ### The timer tick (R88, R89) -/

@[simp] theorem tick_mem (s : State) : (tick s).mem = s.mem := rfl
@[simp] theorem tick_v (s : State) : (tick s).v = s.v := rfl
@[simp] theorem tick_i (s : State) : (tick s).i = s.i := rfl
@[simp] theorem tick_pc (s : State) : (tick s).pc = s.pc := rfl
@[simp] theorem tick_stack (s : State) : (tick s).stack = s.stack := rfl
@[simp] theorem tick_sp (s : State) : (tick s).sp = s.sp := rfl
@[simp] theorem tick_dt (s : State) : (tick s).dt = countDown s.dt := rfl
@[simp] theorem tick_st (s : State) : (tick s).st = countDown s.st := rfl
@[simp] theorem tick_fb (s : State) : (tick s).fb = s.fb := rfl
@[simp] theorem tick_keys (s : State) : (tick s).keys = s.keys := rfl
@[simp] theorem tick_outcome (s : State) : (tick s).outcome = if s.st = 1 then .beeped else .cont := rfl
@[simp] theorem tick_draws (s : State) : (tick s).draws = s.draws := rfl
@[simp] theorem tick_reg (s : State) (y : Reg) : (tick s).reg y = s.reg y := rfl
@[simp] theorem tick_slot (s : State) (j : Fin 16) : (tick s).slot j = s.slot j := rfl
@[simp] theorem tick_keyHeld (s : State) (j : Reg) : (tick s).keyHeld j = s.keyHeld j := rfl
@[simp] theorem tick_byteAt (s : State) (a : Nat) : (tick s).byteAt a = s.byteAt a := rfl
@[simp] theorem tick_cell (s : State) (px py : Nat) : (tick s).cell px py = s.cell px py := rfl
@[simp] theorem tick_base (s : State) : (tick s).base = s.base := rfl

end Sys2Proof.Machine.State
end

