-- ==== Sys2Proof/Laws/Memory.lean ====
section
/-! SUPPORT. The laws of memory (20_memory.md R44, R45, R48): a read after a write, every other address unchanged, the canonical form
kept by every write, and equal contents being equal data. -/

namespace Sys2Proof.Machine.Memory

/-! ### One byte -/

theorem readByte_eraseCell (m : Memory) (a c : Nat) :
    (m.eraseCell a).readByte c = if c = a then unlisted c else m.readByte c := by
  induction m with
  | nil => simp [eraseCell, readByte]
  | cons e rest ih =>
    obtain ⟨k, b⟩ := e
    simp only [eraseCell, List.filter_cons, bne_iff_ne, ne_eq] at ih ⊢
    by_cases hk : k = a <;> by_cases hc : k = c <;> simp_all [readByte]

theorem readByte_insertCell {m : Memory} {a : Nat} (h : ∀ c ∈ m, c.1 ≠ a) (b : Byte) (c : Nat) :
    (m.insertCell a b).readByte c = if c = a then b else m.readByte c := by
  induction m with
  | nil => simp [insertCell, readByte, eq_comm]
  | cons e rest ih =>
    obtain ⟨k, d⟩ := e
    have hk : k ≠ a := h (k, d) (by simp)
    have ih := ih fun c hc => h c (by simp [hc])
    unfold insertCell
    split
    · simp [readByte, eq_comm]
    · simp only [readByte, ih]
      by_cases hc : k = c <;> simp_all

theorem eraseCell_ne (m : Memory) (a : Nat) : ∀ c ∈ m.eraseCell a, c.1 ≠ a := by
  simp [eraseCell]

/-- A write is read back, and every other address keeps its byte. -/
@[simp] theorem readByte_writeByte (m : Memory) (a : Nat) (b : Byte) (c : Nat) :
    (m.writeByte a b).readByte c = if c = a then b else m.readByte c := by
  unfold writeByte
  split
  · rename_i h
    rw [readByte_eraseCell]
    by_cases hc : c = a <;> simp [hc, h]
  · rw [readByte_insertCell (eraseCell_ne m a), readByte_eraseCell]
    by_cases hc : c = a <;> simp [hc]

/-! ### The canonical form -/

theorem mem_insertCell {m : Memory} {a : Nat} {b : Byte} {c : Host.Cell} (h : c ∈ m.insertCell a b) : c = (a, b) ∨ c ∈ m := by
  induction m with
  | nil => simpa [insertCell] using h
  | cons e rest ih =>
    obtain ⟨k, d⟩ := e
    unfold insertCell at h
    split at h
    · simpa using h
    · rcases List.mem_cons.mp h with rfl | h
      · simp
      · rcases ih h with h | h <;> simp [h]

theorem eraseCell_wf {m : Memory} (h : m.wf) (a : Nat) : (m.eraseCell a).wf :=
  ⟨h.1.filter _, fun c hc => h.2 c (List.mem_of_mem_filter hc)⟩

theorem insertCell_pairwise {m : Memory} {a : Nat} (hm : m.Pairwise (fun c d => c.1 < d.1)) (ha : ∀ c ∈ m, c.1 ≠ a) (b : Byte) :
    (m.insertCell a b).Pairwise (fun c d => c.1 < d.1) := by
  induction m with
  | nil => simp [insertCell]
  | cons e rest ih =>
    obtain ⟨k, d⟩ := e
    have hk : k ≠ a := ha (k, d) (by simp)
    obtain ⟨hhead, htail⟩ := List.pairwise_cons.mp hm
    unfold insertCell
    split
    · rename_i hlt
      refine List.pairwise_cons.mpr ⟨fun c hc => ?_, hm⟩
      rcases List.mem_cons.mp hc with rfl | hc
      · exact hlt
      · exact Nat.lt_trans hlt (hhead c hc)
    · rename_i hge
      refine List.pairwise_cons.mpr ⟨fun c hc => ?_, ih htail fun c hc => ha c (by simp [hc])⟩
      rcases mem_insertCell hc with rfl | hc
      · show k < a
        omega
      · exact hhead c hc

/-- A write inside memory keeps the canonical form. -/
theorem writeByte_wf {m : Memory} (h : m.wf) {a : Nat} (ha : a < Config.memSize) (b : Byte) : (m.writeByte a b).wf := by
  unfold writeByte
  split
  · exact eraseCell_wf h a
  · rename_i hb
    have he := eraseCell_wf h a
    refine ⟨insertCell_pairwise he.1 (eraseCell_ne m a) b, fun c hc => ?_⟩
    rcases mem_insertCell hc with rfl | hc
    · exact ⟨ha, hb⟩
    · exact he.2 c hc

/-! ### Several bytes -/

@[simp] theorem length_readBytes (m : Memory) (a n : Nat) : (m.readBytes a n).length = n := by
  induction n generalizing a with
  | zero => rfl
  | succ n ih => simp [readBytes, ih]

theorem getElem_readBytes (m : Memory) (a n k : Nat) (h : k < (m.readBytes a n).length) :
    (m.readBytes a n)[k] = m.readByte (a + k) := by
  induction n generalizing a k with
  | zero => simp at h
  | succ n ih =>
    cases k with
    | zero => simp [readBytes]
    | succ k => simp [readBytes, ih, Nat.add_assoc, Nat.add_comm 1 k]

theorem getD_readBytes (m : Memory) (a n k : Nat) (h : k < n) (d : Byte) : (m.readBytes a n).getD k d = m.readByte (a + k) := by
  have hk : k < (m.readBytes a n).length := by simpa using h
  rw [List.getD_eq_getElem?_getD, List.getElem?_eq_getElem hk, Option.getD_some, getElem_readBytes]

/-- Everything `writeBytes` does to one address: byte k of the list at a + k, every other address as before. -/
theorem readByte_writeBytes (m : Memory) (a : Nat) (bs : List Byte) (c : Nat) :
    (m.writeBytes a bs).readByte c = if h : a ≤ c ∧ c < a + bs.length then bs[c - a]'(by omega) else m.readByte c := by
  induction bs generalizing m a with
  | nil => simp [writeBytes]
  | cons b bs ih =>
    rw [writeBytes, ih]
    by_cases h1 : c = a
    · subst h1; simp
    · by_cases h2 : a + 1 ≤ c ∧ c < a + 1 + bs.length
      · have h3 : a ≤ c ∧ c < a + (b :: bs).length := by simp; omega
        rw [dif_pos h2, dif_pos h3]
        obtain ⟨d, rfl⟩ : ∃ d, c = a + 1 + d := ⟨c - (a + 1), by omega⟩
        have e1 : a + 1 + d - (a + 1) = d := by omega
        have e2 : a + 1 + d - a = d + 1 := by omega
        simp [e1, e2]
      · have h3 : ¬ (a ≤ c ∧ c < a + (b :: bs).length) := by simp; omega
        rw [dif_neg h2, dif_neg h3]
        simp [h1]

theorem readByte_writeBytes_of_outside (m : Memory) {a c : Nat} {bs : List Byte} (h : c < a ∨ a + bs.length ≤ c) :
    (m.writeBytes a bs).readByte c = m.readByte c := by
  rw [readByte_writeBytes, dif_neg (by omega)]

theorem readByte_writeBytes_of_inside (m : Memory) (a : Nat) {bs : List Byte} {k : Nat} (h : k < bs.length) :
    (m.writeBytes a bs).readByte (a + k) = bs[k] := by
  rw [readByte_writeBytes, dif_pos (by omega)]
  simp

/-- A store whose whole range lies inside memory keeps the canonical form. -/
theorem writeBytes_wf {m : Memory} (h : m.wf) {a : Nat} {bs : List Byte} (ha : a + bs.length ≤ Config.memSize) :
    (m.writeBytes a bs).wf := by
  induction bs generalizing m a with
  | nil => exact h
  | cons b bs ih =>
    simp only [List.length_cons] at ha
    exact ih (writeByte_wf h (by omega) b) (by omega)

theorem nil_wf : Memory.wf [] := by simp [wf]

/-! ### Equal contents are equal data -/

theorem readByte_of_mem {m : Memory} (h : m.wf) {c : Host.Cell} (hc : c ∈ m) : m.readByte c.1 = c.2 := by
  induction m with
  | nil => simp at hc
  | cons e rest ih =>
    obtain ⟨k, b⟩ := e
    obtain ⟨hhead, htail⟩ := List.pairwise_cons.mp h.1
    rcases List.mem_cons.mp hc with rfl | hc
    · simp [readByte]
    · have hlt := hhead c hc
      have hne : k ≠ c.1 := Nat.ne_of_lt hlt
      simp only [readByte, if_neg hne]
      exact ih ⟨htail, fun d hd => h.2 d (by simp [hd])⟩ hc

theorem readByte_of_not_listed {m : Memory} {a : Nat} (h : ∀ c ∈ m, c.1 ≠ a) : m.readByte a = unlisted a := by
  induction m with
  | nil => rfl
  | cons e rest ih =>
    obtain ⟨k, b⟩ := e
    have hk : k ≠ a := h (k, b) (by simp)
    simp only [readByte, if_neg hk]
    exact ih fun c hc => h c (by simp [hc])

/-- The listed cells are exactly the addresses that read otherwise than unlisted ones. -/
theorem mem_iff_of_wf {m : Memory} (h : m.wf) (a : Nat) (b : Byte) : (a, b) ∈ m ↔ m.readByte a = b ∧ b ≠ unlisted a := by
  constructor
  · intro hab
    exact ⟨readByte_of_mem h hab, (h.2 _ hab).2⟩
  · rintro ⟨rfl, hne⟩
    by_contra hn
    apply hne
    apply readByte_of_not_listed
    rintro ⟨k, d⟩ hc rfl
    have := readByte_of_mem h hc
    simp only at this
    exact hn (this ▸ hc)

end Sys2Proof.Machine.Memory
end

