-- ==== Sys2Proof/Laws/Ops.lean ====
section
/-! SUPPORT. One lemma per shared operation, saying once everything it can answer: the memory primitives, the fetch, the call stack, the
register lists, the keys and the timers. -/

namespace Sys2Proof.Machine

/-! ### Memory primitives -/

theorem memRead_ok_iff {k : OobKind} {s : State} {addr n : Nat} {bs : List Byte} :
    memRead k s addr n = .ok bs ↔ addr + n ≤ 4096 ∧ bs = s.mem.readBytes addr n := by
  unfold memRead
  simp only [Config.memSize]
  split
  · simp; omega
  · simp [eq_comm]; omega

theorem memRead_error_iff {k k' : OobKind} {s : State} {addr n : Nat} :
    memRead k s addr n = .error k' ↔ 4096 < addr + n ∧ k' = k := by
  unfold memRead
  simp only [Config.memSize]
  split
  · simp [eq_comm]; omega
  · simp; omega

theorem memWrite_ok_iff {k : OobKind} {s t : State} {addr : Nat} {bs : List Byte} :
    memWrite k s addr bs = .ok t ↔ addr + bs.length ≤ 4096 ∧ t = s.setMem (s.mem.writeBytes addr bs) := by
  unfold memWrite
  simp only [Config.memSize]
  split
  · simp; omega
  · simp [eq_comm]; omega

theorem memWrite_error_iff {k k' : OobKind} {s : State} {addr : Nat} {bs : List Byte} :
    memWrite k s addr bs = .error k' ↔ 4096 < addr + bs.length ∧ k' = k := by
  unfold memWrite
  simp only [Config.memSize]
  split
  · simp [eq_comm]; omega
  · simp; omega

/-- The fetch (R81) inside memory: two bytes, first byte high. -/
theorem fetch_ok {s : State} (h : s.pc.toNat + 2 ≤ 4096) : fetch s = .ok (s.byteAt s.pc.toNat ++ s.byteAt (s.pc.toNat + 1)) := by
  have hr : memRead .fetch s s.pc.toNat 2 = .ok (s.mem.readBytes s.pc.toNat 2) := memRead_ok_iff.mpr ⟨h, rfl⟩
  simp [fetch, hr, Memory.readBytes, State.byteAt]

theorem fetch_error {s : State} (h : 4096 < s.pc.toNat + 2) : fetch s = .error .fetch := by
  have hr : memRead .fetch s s.pc.toNat 2 = .error .fetch := memRead_error_iff.mpr ⟨h, rfl⟩
  simp [fetch, hr]

theorem fetch_ok_iff {s : State} {w : Word} :
    fetch s = .ok w ↔ s.pc.toNat + 2 ≤ 4096 ∧ w = s.byteAt s.pc.toNat ++ s.byteAt (s.pc.toNat + 1) := by
  by_cases h : s.pc.toNat + 2 ≤ 4096
  · simp [fetch_ok h, h, eq_comm]
  · simp [fetch_error (Nat.lt_of_not_le h), h]

theorem fetch_error_iff {s : State} {k : OobKind} : fetch s = .error k ↔ 4096 < s.pc.toNat + 2 ∧ k = .fetch := by
  by_cases h : s.pc.toNat + 2 ≤ 4096
  · simp [fetch_ok h]; omega
  · simp [fetch_error (Nat.lt_of_not_le h), eq_comm]; omega

/-! ### The call stack -/

theorem push_of_lt {w : Word} {s : State} (h : s.sp.val < 16) :
    push w s = .ok ((s.setSlot ⟨s.sp.val, h⟩ w).setSp ⟨s.sp.val + 1, by omega⟩) := by simp [push, h]

theorem push_of_full {w : Word} {s : State} (h : s.sp.val = 16) : push w s = .error .stackOverflow := by simp [push, h]

theorem push_error {w : Word} {s : State} {k : OobKind} (h : push w s = .error k) : s.sp.val = 16 ∧ k = .stackOverflow := by
  unfold push at h
  split at h
  · simp at h
  · simp at h; exact ⟨by omega, h.symm⟩

theorem push_ok {w : Word} {s t : State} (h : push w s = .ok t) :
    ∃ hlt : s.sp.val < 16, t = (s.setSlot ⟨s.sp.val, hlt⟩ w).setSp ⟨s.sp.val + 1, by omega⟩ := by
  unfold push at h
  split at h
  · rename_i hlt
    exact ⟨hlt, (Except.ok.inj h).symm⟩
  · simp at h

theorem pop_of_pos {s : State} (h : 0 < s.sp.val) :
    pop s = .ok (s.slot ⟨s.sp.val - 1, by omega⟩, s.setSp ⟨s.sp.val - 1, by omega⟩) := by simp [pop, h]

theorem pop_of_empty {s : State} (h : s.sp.val = 0) : pop s = .error .stackUnderflow := by simp [pop, h]

theorem pop_error {s : State} {k : OobKind} (h : pop s = .error k) : s.sp.val = 0 ∧ k = .stackUnderflow := by
  unfold pop at h
  split at h
  · simp at h
  · simp at h; exact ⟨by omega, h.symm⟩

theorem pop_ok {s : State} {p : Word × State} (h : pop s = .ok p) :
    ∃ hlt : 0 < s.sp.val, p = (s.slot ⟨s.sp.val - 1, by omega⟩, s.setSp ⟨s.sp.val - 1, by omega⟩) := by
  unfold pop at h
  split at h
  · rename_i hlt
    exact ⟨hlt, (Except.ok.inj h).symm⟩
  · simp at h

/-! ### The register lists -/

@[simp] theorem length_regsUpTo (x : Reg) : (regsUpTo x).length = x.val + 1 := by
  simp only [regsUpTo, List.length_take, allRegs, List.length_cons, List.length_nil]; omega

theorem getElem_allRegs (k : Nat) (h : k < allRegs.length) : allRegs[k] = ⟨k, by simpa [allRegs] using h⟩ := by
  have h16 : k < 16 := by simpa [allRegs] using h
  have : ∀ j : Fin 16, allRegs[j.val]'(by simp [allRegs]) = j := by decide
  exact this ⟨k, h16⟩

theorem getElem_regsUpTo (x : Reg) (k : Nat) (h : k < (regsUpTo x).length) : (regsUpTo x)[k] = ⟨k, by simp at h; omega⟩ := by
  simp only [regsUpTo, List.getElem_take]
  exact getElem_allRegs k _

@[simp] theorem length_dumpBytes (s : State) (x : Reg) : (dumpBytes s x).length = x.val + 1 := by simp [dumpBytes]

theorem getElem_dumpBytes (s : State) (x : Reg) (k : Nat) (h : k < (dumpBytes s x).length) :
    (dumpBytes s x)[k] = s.reg ⟨k, by simp at h; omega⟩ := by
  simp [dumpBytes, getElem_regsUpTo]

/-- `setRegs` touches the register file only. -/
theorem setRegs_eq (s : State) (ks : List Reg) (bs : List Byte) : s.setRegs ks bs = { s with v := (s.setRegs ks bs).v } := by
  induction ks generalizing s bs with
  | nil => rfl
  | cons k ks ih =>
    cases bs with
    | nil => rfl
    | cons b bs =>
      simp only [State.setRegs]
      rw [ih]
      simp [State.setReg]

theorem setRegs_keys (s : State) (keys : Vector Bool 16) (ks : List Reg) (bs : List Byte) :
    ({ s with keys := keys } : State).setRegs ks bs = { s.setRegs ks bs with keys := keys } := by
  induction ks generalizing s bs with
  | nil => rfl
  | cons k ks ih =>
    cases bs with
    | nil => rfl
    | cons b bs => exact ih (s.setReg k b) bs

theorem setRegs_st (s : State) (st : Byte) (ks : List Reg) (bs : List Byte) :
    ({ s with st := st } : State).setRegs ks bs = { s.setRegs ks bs with st := st } := by
  induction ks generalizing s bs with
  | nil => rfl
  | cons k ks ih =>
    cases bs with
    | nil => rfl
    | cons b bs => exact ih (s.setReg k b) bs

theorem setRegs_draws (s : State) (n : Nat) (ks : List Reg) (bs : List Byte) :
    ({ s with draws := n } : State).setRegs ks bs = { s.setRegs ks bs with draws := n } := by
  induction ks generalizing s bs with
  | nil => rfl
  | cons k ks ih =>
    cases bs with
    | nil => rfl
    | cons b bs => exact ih (s.setReg k b) bs

theorem setRegs_reg_of_not_mem (s : State) {ks : List Reg} (bs : List Byte) {y : Reg} (h : y ∉ ks) :
    (s.setRegs ks bs).reg y = s.reg y := by
  induction ks generalizing s bs with
  | nil => rfl
  | cons k ks ih =>
    cases bs with
    | nil => rfl
    | cons b bs =>
      simp only [List.mem_cons, not_or] at h
      simp only [State.setRegs]
      rw [ih _ _ h.2]
      simp [h.1]

theorem setRegs_reg_of_getElem (s : State) {ks : List Reg} {bs : List Byte} (hn : ks.Nodup) (j : Nat) (hk : j < ks.length)
    (hb : j < bs.length) : (s.setRegs ks bs).reg ks[j] = bs[j] := by
  induction ks generalizing s bs j with
  | nil => simp at hk
  | cons k ks ih =>
    cases bs with
    | nil => simp at hb
    | cons b bs =>
      simp only [State.setRegs]
      obtain ⟨hnot, hrest⟩ := List.nodup_cons.mp hn
      cases j with
      | zero =>
        simp only [List.getElem_cons_zero]
        rw [setRegs_reg_of_not_mem _ _ hnot]
        simp
      | succ j =>
        simp only [List.getElem_cons_succ]
        exact ih _ hrest j (by simpa using hk) (by simpa using hb)

theorem nodup_regsUpTo (x : Reg) : (regsUpTo x).Nodup := by
  have : allRegs.Nodup := by decide
  exact this.sublist (List.take_sublist _ _)

theorem mem_regsUpTo (x y : Reg) : y ∈ regsUpTo x ↔ y.val ≤ x.val := by
  constructor
  · intro h
    obtain ⟨k, hk, rfl⟩ := List.getElem_of_mem h
    have : k < x.val + 1 := by simpa using hk
    rw [getElem_regsUpTo]; simp; omega
  · intro h
    have hk : y.val < (regsUpTo x).length := by simp; omega
    have := getElem_regsUpTo x y.val hk
    exact List.mem_of_getElem this

/-- Loading the bytes at I, I+1, .. into V[0]..V[X] (R145), register by register. -/
theorem setRegs_upTo_reg (s : State) (x : Reg) (a : Nat) (y : Reg) :
    (s.setRegs (regsUpTo x) (s.mem.readBytes a (x.val + 1))).reg y = if y.val ≤ x.val then s.byteAt (a + y.val) else s.reg y := by
  split
  · rename_i h
    have hk : y.val < (regsUpTo x).length := by simp; omega
    have hb : y.val < (s.mem.readBytes a (x.val + 1)).length := by simp; omega
    have := setRegs_reg_of_getElem s (nodup_regsUpTo x) y.val hk hb
    rw [getElem_regsUpTo, Memory.getElem_readBytes] at this
    exact this
  · rename_i h
    exact setRegs_reg_of_not_mem s _ (by rw [mem_regsUpTo]; exact h)

/-! ### Keys -/

theorem mem_allRegs (k : Reg) : k ∈ allRegs := by revert k; decide

theorem lowestKey_none_iff {s : State} : lowestKey s = none ↔ ∀ k, s.keyHeld k = false := by
  simp [lowestKey, List.find?_eq_none, mem_allRegs]

/-- The key found is held and no lower key is (R163). -/
theorem lowestKey_some_iff {s : State} {k : Reg} :
    lowestKey s = some k ↔ s.keyHeld k = true ∧ ∀ j, j < k → s.keyHeld j = false := by
  have least : ∀ (f : Reg → Bool), (∀ k, allRegs.find? f = some k ↔ f k = true ∧ ∀ j, j < k → f j = false) := by
    intro f k
    rw [List.find?_eq_some_iff_getElem]
    constructor
    · rintro ⟨hk, i, hi, rfl, hlt⟩
      refine ⟨hk, fun j hj => ?_⟩
      rw [getElem_allRegs] at hj
      have hji : j.val < i := hj
      have := hlt j.val hji
      rw [getElem_allRegs] at this
      simpa using this
    · rintro ⟨hk, hlt⟩
      have hlen : k.val < allRegs.length := by simp [allRegs]
      refine ⟨hk, k.val, hlen, getElem_allRegs _ _, fun j hj => ?_⟩
      rw [getElem_allRegs]
      simpa using hlt ⟨j, by omega⟩ hj
  exact least s.keyHeld k

theorem keyIndex_some_iff {s : State} {x k : Reg} : keyIndex s x = some k ↔ (s.reg x).toNat = k.val := by
  unfold keyIndex
  split
  · simp [Fin.ext_iff]
  · simp; omega

theorem keyIndex_none_iff {s : State} {x : Reg} : keyIndex s x = none ↔ 15 < (s.reg x).toNat := by
  unfold keyIndex
  split <;> simp <;> omega

/-! ### Timers and flags -/

theorem countDown_toNat (b : Byte) : (countDown b).toNat = b.toNat - 1 := by
  unfold countDown
  split
  · simp_all
  · rename_i h
    have hb : b.toNat ≠ 0 := fun h0 => h (by apply BitVec.eq_of_toNat_eq; simpa using h0)
    have := b.isLt
    have h1 : (1 : Byte).toNat = 1 := rfl
    rw [BitVec.toNat_sub, h1]
    omega

theorem flagByte_eq (c : Bool) : flagByte c = 0 ∨ flagByte c = 1 := by cases c <;> simp [flagByte]

end Sys2Proof.Machine
end

