-- ==== Sys2Proof/Laws/Display.lean ====
section
/-! SUPPORT. What the sprite scan of Draw does (45_display.md R151 to R153): each cell becomes its exclusive or with the sprite's pixel
there, and the collision is "some toggled cell was 1 before the instruction". -/

namespace Sys2Proof.Machine

/-! ### Cells -/

theorem Framebuffer.cell_toggle (fb : Framebuffer) {px py qx qy : Nat} (hp : px ≤ 63 ∧ py ≤ 31) (hq : qx ≤ 63 ∧ qy ≤ 31) :
    Framebuffer.cell (Framebuffer.toggle fb px py) qx qy = (Framebuffer.cell fb qx qy ^^ decide (qx = px ∧ qy = py)) := by
  have hy : py < 32 := by omega
  have hy' : qy < 32 := by omega
  have hx : px < 64 := by omega
  simp only [Framebuffer.cell, Framebuffer.toggle, dif_pos hy, dif_pos hy', Vector.getElem_set]
  by_cases h : py = qy
  · subst h
    simp [BitVec.getLsbD_xor, BitVec.getLsbD_twoPow, hx, eq_comm]
  · have h' : ¬ qy = py := fun e => h e.symm
    simp [h, h']

@[simp] theorem Framebuffer.cell_clear (px py : Nat) : Framebuffer.cell Framebuffer.clear px py = false := by
  simp [Framebuffer.cell, Framebuffer.clear]

/-- The 2048 cells are the whole framebuffer (R20). -/
theorem Framebuffer.ext_cells {f g : Framebuffer} (h : ∀ px py, px ≤ 63 → py ≤ 31 → Framebuffer.cell f px py = Framebuffer.cell g px py) :
    f = g := by
  apply Vector.ext
  intro y hy
  apply BitVec.eq_of_getLsbD_eq
  intro x hx
  simpa only [Framebuffer.cell, dif_pos hy] using h x y (by omega) (by omega)

/-! ### One row -/

/-- Whether a 1 bit of row byte b at one of the column offsets cs falls on column px. -/
def columnHit (x0 : Nat) (b : Byte) (cs : List Nat) (px : Nat) : Prop := ∃ c ∈ cs, px = x0 + c ∧ b.getLsbD (7 - c) = true

theorem drawPixel_cell (px py : Nat) (d : Scan) {qx qy : Nat} (hq : qx ≤ 63 ∧ qy ≤ 31) :
    Framebuffer.cell (drawPixel px py d).1 qx qy = (Framebuffer.cell d.1 qx qy ^^ decide (qx = px ∧ qy = py)) := by
  unfold drawPixel
  split
  · rename_i hp; exact Framebuffer.cell_toggle d.1 hp hq
  · rename_i hp
    have : ¬ (qx = px ∧ qy = py) := by omega
    simp [this]

theorem drawPixel_collision (px py : Nat) (d : Scan) :
    (drawPixel px py d).2 = true ↔ d.2 = true ∨ (px ≤ 63 ∧ py ≤ 31 ∧ Framebuffer.cell d.1 px py = true) := by
  unfold drawPixel
  split
  · rename_i hp; simp [hp.1, hp.2]
  · rename_i hp
    constructor
    · exact Or.inl
    · rintro (h | ⟨h1, h2, -⟩)
      · exact h
      · exact absurd ⟨h1, h2⟩ hp

theorem drawColumns_cell (x0 py : Nat) (b : Byte) {cs : List Nat} (hn : cs.Nodup) (d : Scan) {qx qy : Nat} (hq : qx ≤ 63 ∧ qy ≤ 31) :
    Framebuffer.cell (drawColumns x0 py b cs d).1 qx qy = true ↔
      (Framebuffer.cell d.1 qx qy = true ↔ ¬ (qy = py ∧ columnHit x0 b cs qx)) := by
  induction cs generalizing d with
  | nil => simp [drawColumns, columnHit]
  | cons c cs ih =>
    obtain ⟨hnot, hrest⟩ := List.nodup_cons.mp hn
    rw [drawColumns, ih hrest]
    by_cases hb : b.getLsbD (7 - c) = true
    · rw [if_pos hb, drawPixel_cell _ _ _ hq]
      by_cases hx : qx = x0 + c
      · have hno : ¬ columnHit x0 b cs qx := by
          rintro ⟨c', hc', he, -⟩
          exact hnot (by rwa [show c = c' by omega])
        have hyes : columnHit x0 b (c :: cs) qx := ⟨c, by simp, hx, hb⟩
        by_cases hy : qy = py <;> simp [hx ▸ hno, hx ▸ hyes, hx, hy]
      · have hsame : columnHit x0 b (c :: cs) qx ↔ columnHit x0 b cs qx := by simp [columnHit, hx]
        simp [hsame, hx]
    · have hsame : columnHit x0 b (c :: cs) qx ↔ columnHit x0 b cs qx := by
        simp only [Bool.not_eq_true] at hb
        simp [columnHit, hb]
      rw [if_neg hb, hsame]

theorem drawColumns_collision (x0 py : Nat) (b : Byte) {cs : List Nat} (hn : cs.Nodup) (d : Scan) :
    (drawColumns x0 py b cs d).2 = true ↔
      d.2 = true ∨ ∃ qx, qx ≤ 63 ∧ py ≤ 31 ∧ columnHit x0 b cs qx ∧ Framebuffer.cell d.1 qx py = true := by
  induction cs generalizing d with
  | nil => simp [drawColumns, columnHit]
  | cons c cs ih =>
    obtain ⟨hnot, hrest⟩ := List.nodup_cons.mp hn
    rw [drawColumns, ih hrest]
    by_cases hb : b.getLsbD (7 - c) = true
    · rw [if_pos hb, drawPixel_collision]
      constructor
      · rintro ((h | ⟨h1, h2, h3⟩) | ⟨qx, h1, h2, ⟨c', hc', rfl, hb'⟩, h4⟩)
        · exact .inl h
        · exact .inr ⟨x0 + c, h1, h2, ⟨c, by simp, rfl, hb⟩, h3⟩
        · refine .inr ⟨x0 + c', h1, h2, ⟨c', by simp [hc'], rfl, hb'⟩, ?_⟩
          rw [drawPixel_cell _ _ _ ⟨h1, h2⟩] at h4
          have : c' ≠ c := fun he => hnot (he ▸ hc')
          simpa [this] using h4
      · rintro (h | ⟨qx, h1, h2, ⟨c', hc', rfl, hb'⟩, h4⟩)
        · exact .inl (.inl h)
        · rcases List.mem_cons.mp hc' with rfl | hc'
          · exact .inl (.inr ⟨h1, h2, h4⟩)
          · refine .inr ⟨x0 + c', h1, h2, ⟨c', hc', rfl, hb'⟩, ?_⟩
            rw [drawPixel_cell _ _ _ ⟨h1, h2⟩]
            have : c' ≠ c := fun he => hnot (he ▸ hc')
            simpa [this] using h4
    · rw [if_neg hb]
      have hsame : ∀ qx, columnHit x0 b (c :: cs) qx ↔ columnHit x0 b cs qx := by
        intro qx
        simp only [Bool.not_eq_true] at hb
        simp [columnHit, hb]
      simp [hsame]

theorem columnHit_row (x0 : Nat) (b : Byte) (px : Nat) :
    columnHit x0 b [0, 1, 2, 3, 4, 5, 6, 7] px ↔ x0 ≤ px ∧ px < x0 + 8 ∧ b.getLsbD (7 - (px - x0)) = true := by
  constructor
  · rintro ⟨c, hc, rfl, hb⟩
    have : c < 8 := by simp at hc; omega
    have hsub : x0 + c - x0 = c := by omega
    exact ⟨by omega, by omega, by rw [hsub]; exact hb⟩
  · rintro ⟨h1, h2, hb⟩
    refine ⟨px - x0, ?_, by omega, hb⟩
    have : px - x0 < 8 := by omega
    simp; omega

/-! ### The whole sprite -/

/-- The sprite's pixel at (px, py) for an origin (x0, y0) and its row bytes (R151): bit 7 - c of row r, c and r the offsets. -/
def SpritePixel (x0 y0 : Nat) (rows : List Byte) (px py : Nat) : Prop :=
  x0 ≤ px ∧ px < x0 + 8 ∧ y0 ≤ py ∧ py < y0 + rows.length ∧ (rows.getD (py - y0) 0).getLsbD (7 - (px - x0)) = true

theorem spritePixel_nil (x0 y0 px py : Nat) : ¬ SpritePixel x0 y0 [] px py := by
  simp only [SpritePixel, List.length_nil]; omega

theorem spritePixel_cons (x0 y0 : Nat) (b : Byte) (bs : List Byte) (px py : Nat) :
    SpritePixel x0 y0 (b :: bs) px py ↔
      (py = y0 ∧ columnHit x0 b [0, 1, 2, 3, 4, 5, 6, 7] px) ∨ SpritePixel x0 (y0 + 1) bs px py := by
  rw [columnHit_row]
  unfold SpritePixel
  by_cases hy : py = y0
  · subst hy; simp
  · by_cases hlt : y0 + 1 ≤ py
    · have : py - y0 = (py - (y0 + 1)) + 1 := by omega
      rw [this]
      simp only [List.length_cons, List.getD_cons_succ, hy, false_and, false_or, hlt, true_and]
      constructor
      · rintro ⟨h1, h2, h3, h4, h5⟩; exact ⟨h1, h2, by omega, h5⟩
      · rintro ⟨h1, h2, h4, h5⟩; exact ⟨h1, h2, by omega, by omega, h5⟩
    · constructor
      · rintro ⟨-, -, h, -⟩; omega
      · rintro (⟨h, -⟩ | ⟨-, -, h, -⟩) <;> omega

/-- Each cell of the grid becomes its exclusive or with the sprite's pixel there (R152). -/
theorem drawRows_cell (x0 y0 : Nat) (rows : List Byte) (d : Scan) {qx qy : Nat} (hq : qx ≤ 63 ∧ qy ≤ 31) :
    Framebuffer.cell (drawRows x0 y0 rows d).1 qx qy = true ↔
      (Framebuffer.cell d.1 qx qy = true ↔ ¬ SpritePixel x0 y0 rows qx qy) := by
  induction rows generalizing y0 d with
  | nil => simp [drawRows, spritePixel_nil]
  | cons b bs ih =>
    rw [drawRows, ih, drawRow, drawColumns_cell _ _ _ (by decide) _ hq, spritePixel_cons]
    have hex : ¬ ((qy = y0 ∧ columnHit x0 b [0, 1, 2, 3, 4, 5, 6, 7] qx) ∧ SpritePixel x0 (y0 + 1) bs qx qy) := by
      rintro ⟨⟨rfl, -⟩, -, -, h, -⟩; omega
    tauto

/-- The collision (R152, R153 g): some toggled cell was 1 before the instruction. -/
theorem drawRows_collision (x0 y0 : Nat) (rows : List Byte) (d : Scan) :
    (drawRows x0 y0 rows d).2 = true ↔
      d.2 = true ∨ ∃ qx qy, qx ≤ 63 ∧ qy ≤ 31 ∧ SpritePixel x0 y0 rows qx qy ∧ Framebuffer.cell d.1 qx qy = true := by
  induction rows generalizing y0 d with
  | nil => simp [drawRows, spritePixel_nil]
  | cons b bs ih =>
    rw [drawRows, ih, drawRow, drawColumns_collision _ _ _ (by decide)]
    have hrest : ∀ qx qy, qx ≤ 63 → qy ≤ 31 → SpritePixel x0 (y0 + 1) bs qx qy →
        (Framebuffer.cell (drawColumns x0 y0 b [0, 1, 2, 3, 4, 5, 6, 7] d).1 qx qy = true ↔ Framebuffer.cell d.1 qx qy = true) := by
      intro qx qy hx hy hs
      have hne : qy ≠ y0 := by have := hs.2.2.1; omega
      rw [drawColumns_cell _ _ _ (by decide) _ ⟨hx, hy⟩]
      simp [hne]
    constructor
    · rintro ((h | ⟨qx, h1, h2, h3, h4⟩) | ⟨qx, qy, h1, h2, h3, h4⟩)
      · exact .inl h
      · exact .inr ⟨qx, y0, h1, h2, (spritePixel_cons ..).mpr (.inl ⟨rfl, h3⟩), h4⟩
      · exact .inr ⟨qx, qy, h1, h2, (spritePixel_cons ..).mpr (.inr h3), (hrest qx qy h1 h2 h3).mp h4⟩
    · rintro (h | ⟨qx, qy, h1, h2, h3, h4⟩)
      · exact .inl (.inl h)
      · rcases (spritePixel_cons ..).mp h3 with ⟨rfl, hc⟩ | h3
        · exact .inl (.inr ⟨qx, h1, h2, hc, h4⟩)
        · exact .inr ⟨qx, qy, h1, h2, h3, (hrest qx qy h1 h2 h3).mpr h4⟩

/-! ### The sprite bytes -/

theorem spriteRows_ok_iff {s : State} {n : Nibble} {rows : List Byte} :
    spriteRows s n = .ok rows ↔ (n = 0#4 ∨ s.base + n.toNat ≤ 4096) ∧ rows = s.mem.readBytes s.base n.toNat := by
  unfold spriteRows
  by_cases h : n = 0#4
  · subst h; simp [Memory.readBytes, eq_comm]
  · rw [if_neg h, memRead_ok_iff]; simp [h]

theorem spriteRows_error_iff {s : State} {n : Nibble} {k : OobKind} :
    spriteRows s n = .error k ↔ n ≠ 0#4 ∧ 4096 < s.base + n.toNat ∧ k = .memRead := by
  unfold spriteRows
  by_cases h : n = 0#4
  · simp [h]
  · rw [if_neg h, memRead_error_iff]; simp [h]

/-- The sprite of the bytes at address a (R151, R152), byte by byte. -/
theorem spritePixel_readBytes (s : State) (x0 y0 a n px py : Nat) :
    SpritePixel x0 y0 (s.mem.readBytes a n) px py ↔
      x0 ≤ px ∧ px < x0 + 8 ∧ y0 ≤ py ∧ py < y0 + n ∧ (s.byteAt (a + (py - y0))).getLsbD (7 - (px - x0)) = true := by
  unfold SpritePixel
  rw [Memory.length_readBytes]
  by_cases h : y0 ≤ py ∧ py < y0 + n
  · rw [Memory.getD_readBytes _ _ _ _ (by omega)]; rfl
  · constructor <;> (rintro ⟨-, -, h1, h2, -⟩; exact absurd ⟨h1, h2⟩ h)

end Sys2Proof.Machine
end

