-- ==== Sys2Proof/Laws/Encoding.lean ====
section
/-! SUPPORT. The fields of the formats of R62: what each field of R61 reads from a word put together by the encoder, and a word put
together again from its fields. -/

namespace Sys2Proof

/-! ### The fields of a word put together -/

@[simp] theorem fieldN0_formA (op : Nibble) (addr : Addr) : fieldN0 (formA op addr) = op :=
  BitVec.extractLsb'_append_eq_left

@[simp] theorem fieldNNN_formA (op : Nibble) (addr : Addr) : fieldNNN (formA op addr) = addr :=
  BitVec.extractLsb'_append_eq_right

@[simp] theorem fieldNN_formA (op : Nibble) (addr : Addr) : fieldNN (formA op addr) = addr.extractLsb' 0 8 :=
  BitVec.extractLsb'_append_eq_of_add_le (by decide)

@[simp] theorem fieldN0_formRC (op : Nibble) (x : Reg) (nn : Byte) : fieldN0 (formRC op x nn) = op :=
  (BitVec.extractLsb'_append_eq_of_le (by decide)).trans BitVec.extractLsb'_append_eq_left

@[simp] theorem fieldX_formRC (op : Nibble) (x : Reg) (nn : Byte) : fieldX (formRC op x nn) = x :=
  congrArg BitVec.toFin ((BitVec.extractLsb'_append_eq_of_le (by decide)).trans BitVec.extractLsb'_append_eq_right)

@[simp] theorem fieldNN_formRC (op : Nibble) (x : Reg) (nn : Byte) : fieldNN (formRC op x nn) = nn :=
  BitVec.extractLsb'_append_eq_right

@[simp] theorem fieldN0_formRR (op : Nibble) (x y : Reg) (n : Nibble) : fieldN0 (formRR op x y n) = op :=
  (BitVec.extractLsb'_append_eq_of_le (by decide)).trans BitVec.extractLsb'_append_eq_left

@[simp] theorem fieldX_formRR (op : Nibble) (x y : Reg) (n : Nibble) : fieldX (formRR op x y n) = x :=
  congrArg BitVec.toFin ((BitVec.extractLsb'_append_eq_of_le (by decide)).trans BitVec.extractLsb'_append_eq_right)

@[simp] theorem fieldY_formRR (op : Nibble) (x y : Reg) (n : Nibble) : fieldY (formRR op x y n) = y :=
  congrArg BitVec.toFin ((BitVec.extractLsb'_append_eq_of_add_le (by decide)).trans BitVec.extractLsb'_append_eq_left)

@[simp] theorem fieldN_formRR (op : Nibble) (x y : Reg) (n : Nibble) : fieldN (formRR op x y n) = n :=
  (BitVec.extractLsb'_append_eq_of_add_le (by decide)).trans BitVec.extractLsb'_append_eq_right

/-! ### A word from its fields -/

theorem formA_fields (w : Word) : formA (fieldN0 w) (fieldNNN w) = w :=
  BitVec.extractLsb'_append_extractLsb' (w := 4) (len := 12)

theorem highByte_fields (w : Word) : (fieldN0 w ++ (BitVec.ofFin (fieldX w) : Nibble) : BitVec 8) = w.extractLsb' 8 8 := by
  apply BitVec.eq_of_getLsbD_eq
  intro i hi
  simp only [fieldN0, fieldX, BitVec.ofFin_toFin, BitVec.getLsbD_append, BitVec.getLsbD_extractLsb']
  split
  · simp [*]
  · have h1 : 12 + (i - 4) = 8 + i := by omega
    have h2 : i - 4 < 4 := by omega
    simp [h1, h2, hi]

theorem lowByte_fields (w : Word) : ((BitVec.ofFin (fieldY w) : Nibble) ++ fieldN w : BitVec 8) = fieldNN w := by
  apply BitVec.eq_of_getLsbD_eq
  intro i hi
  simp only [fieldY, fieldN, fieldNN, BitVec.ofFin_toFin, BitVec.getLsbD_append, BitVec.getLsbD_extractLsb']
  split
  · simp [*]
  · have h1 : 4 + (i - 4) = 0 + i := by omega
    have h2 : i - 4 < 4 := by omega
    simp [h1, h2, hi]

theorem formRC_fields (w : Word) : formRC (fieldN0 w) (fieldX w) (fieldNN w) = w := by
  unfold formRC
  rw [highByte_fields]
  exact BitVec.extractLsb'_append_extractLsb' (w := 8) (len := 8)

theorem formRR_fields (w : Word) : formRR (fieldN0 w) (fieldX w) (fieldY w) (fieldN w) = w := by
  unfold formRR
  rw [lowByte_fields]
  exact formRC_fields w

theorem wordOfBytes_bytes (w : Word) : wordOfBytes (hiByte w) (loByte w) = w :=
  BitVec.extractLsb'_append_extractLsb' (w := 8) (len := 8)

@[simp] theorem lowByte_fieldNNN (w : Word) : (fieldNNN w).extractLsb' 0 8 = fieldNN w := by
  rw [← fieldNN_formA (fieldN0 w), formA_fields]

/-- Every nibble is one of the sixteen: the case split of R65. -/
theorem nibble_cases (n : Nibble) : n = 0 ∨ n = 1 ∨ n = 2 ∨ n = 3 ∨ n = 4 ∨ n = 5 ∨ n = 6 ∨ n = 7 ∨ n = 8 ∨ n = 9 ∨ n = 10 ∨ n = 11 ∨
    n = 12 ∨ n = 13 ∨ n = 14 ∨ n = 15 := by
  revert n; decide

end Sys2Proof
end

