-- ==== Sys2Proof/Laws/Step.lean ====
section
/-! SUPPORT. What a step can do, said once (40_step_cycle.md R80): the three phases before the tick inverted. -/

namespace Sys2Proof.Machine

/-- The word a step fetches at pc, when it can (R81). -/
def fetchedWord (s : State) : Word := s.byteAt s.pc.toNat ++ s.byteAt (s.pc.toNat + 1)

theorem step_eq_of_range {s : State} (h : 4096 < s.pc.toNat + 2) : step s = .fault (.outOfBounds .fetch) := by
  simp [step, fetch_error h, raiseOob, raise]

theorem step_eq_of_unknown {s : State} (h : s.pc.toNat + 2 ≤ 4096) {r : Reject} (hd : decode (fetchedWord s) = .error r) :
    step s = .fault (.unknownOpcode (fetchedWord s) s.pc) := by
  have hd' : decode (s.byteAt s.pc.toNat ++ s.byteAt (s.pc.toNat + 1)) = .error r := hd
  simp [step, fetch_ok h, hd', raise, fetchedWord]

theorem step_eq_of_decode {s : State} (h : s.pc.toNat + 2 ≤ 4096) {i : Instr} (hd : decode (fetchedWord s) = .ok i) :
    step s = tickAfter (exec i s) := by
  have hd' : decode (s.byteAt s.pc.toNat ++ s.byteAt (s.pc.toNat + 1)) = .ok i := hd
  simp [step, fetch_ok h, hd']

/-- A step is one of three: the fetch fault, the unknown opcode, or a decoded instruction's effect with the tick after it. -/
theorem step_cases (s : State) :
    (4096 < s.pc.toNat + 2 ∧ step s = .fault (.outOfBounds .fetch)) ∨
    (s.pc.toNat + 2 ≤ 4096 ∧ (∃ r, decode (fetchedWord s) = .error r) ∧ step s = .fault (.unknownOpcode (fetchedWord s) s.pc)) ∨
    (s.pc.toNat + 2 ≤ 4096 ∧ ∃ i, decode (fetchedWord s) = .ok i ∧ step s = tickAfter (exec i s)) := by
  by_cases h : s.pc.toNat + 2 ≤ 4096
  · cases hd : decode (fetchedWord s) with
    | error r => exact .inr (.inl ⟨h, ⟨r, rfl⟩, step_eq_of_unknown h hd⟩)
    | ok i => exact .inr (.inr ⟨h, i, rfl, step_eq_of_decode h hd⟩)
  · exact .inl ⟨Nat.lt_of_not_le h, step_eq_of_range (Nat.lt_of_not_le h)⟩

theorem tickAfter_next_iff {r : Result} {t : State} : tickAfter r = .next t ↔ ∃ u, r = .next u ∧ t = tick u := by
  cases r <;> simp [tickAfter, eq_comm]

theorem tickAfter_fault_iff {r : Result} {f : Fault} : tickAfter r = .fault f ↔ r = .fault f := by
  cases r <;> simp [tickAfter]

theorem tickAfter_refused_iff {r : Result} {q : Refusal} : tickAfter r = .refused q ↔ r = .refused q := by
  cases r <;> simp [tickAfter]

/-- Everything a completed step did: the word at pc was decoded, its instruction completed, and the tick followed. -/
theorem step_next {s t : State} (h : step s = .next t) :
    s.pc.toNat + 2 ≤ 4096 ∧ ∃ i u, decode (fetchedWord s) = .ok i ∧ exec i s = .next u ∧ t = tick u := by
  rcases step_cases s with ⟨-, hs⟩ | ⟨-, -, hs⟩ | ⟨hp, i, hd, hs⟩
  · simp [hs] at h
  · simp [hs] at h
  · rw [hs] at h
    obtain ⟨u, hu, rfl⟩ := tickAfter_next_iff.mp h
    exact ⟨hp, i, u, hd, hu, rfl⟩

/-- No instruction is refused: every arm of `exec` has a meaning. -/
theorem exec_ne_refused (i : Instr) (s : State) (r : Refusal) : exec i s ≠ .refused r := by
  cases i <;> simp only [exec, execClearScreen, execReturnFromSub, execMachineCodeCall, execJump, execCallSub, execSkipIfEqualConst,
    execSkipIfNotEqualConst, execSkipIfRegEqual, execSetConst, execAddConst, execSet, execOr, execAnd, execXor, execAddWithCarry,
    execSubWithBorrow, execShiftRight, execReverseSub, execShiftLeft, execSkipIfRegNotEqual, execSetAddressRegister,
    execJumpWithOffset, execRandom, execDraw, execSkipIfKey, execSkipIfNotKey, execGetDelay, execBlockingGetKey, execSetDelay,
    execSetSound, execAddToAddressRegister, execSetAddressRegisterToSpriteFor, execStoreBCD, execRegisterDump, execRegisterLoad,
    skipOnKey, setMasked, done, raiseOob, raise]
  all_goals first
    | (intro h; cases h)
    | (split <;> (intro h; cases h))

end Sys2Proof.Machine
end

