-- ==== Sys2Proof/Laws/Exec.lean ====
section
/-! SUPPORT. The meanings that can fault or wait, each inverted once: when it answers a next state and which, and when it faults. -/

namespace Sys2Proof.Machine

theorem execCallSub_next_iff {addr : Addr} {s t : State} :
    execCallSub addr s = .next t ↔
      ∃ h : s.sp.val < 16, t = ((s.setSlot ⟨s.sp.val, h⟩ (s.pc + 2)).setSp ⟨s.sp.val + 1, by omega⟩).setPc (addrWord addr) := by
  unfold execCallSub
  by_cases h : s.sp.val < 16
  · simp [push_of_lt h, h, returnAddress, eq_comm]
  · simp [push_of_full (by omega : s.sp.val = 16), h, raiseOob, raise]

theorem execCallSub_fault_iff {addr : Addr} {s : State} {f : Fault} :
    execCallSub addr s = .fault f ↔ s.sp.val = 16 ∧ f = .outOfBounds .stackOverflow := by
  unfold execCallSub
  by_cases h : s.sp.val < 16
  · simp [push_of_lt h]; omega
  · have h16 : s.sp.val = 16 := by omega
    simp [push_of_full h16, h16, raiseOob, raise, eq_comm]

theorem execReturnFromSub_next_iff {s t : State} :
    execReturnFromSub s = .next t ↔
      ∃ _ : 0 < s.sp.val, t = (s.setSp ⟨s.sp.val - 1, by omega⟩).setPc (s.slot ⟨s.sp.val - 1, by omega⟩) := by
  unfold execReturnFromSub
  by_cases h : 0 < s.sp.val
  · simp [pop_of_pos h, h, eq_comm]
  · simp [pop_of_empty (by omega : s.sp.val = 0), h, raiseOob, raise]

theorem execReturnFromSub_fault_iff {s : State} {f : Fault} :
    execReturnFromSub s = .fault f ↔ s.sp.val = 0 ∧ f = .outOfBounds .stackUnderflow := by
  unfold execReturnFromSub
  by_cases h : 0 < s.sp.val
  · simp [pop_of_pos h]; omega
  · have h0 : s.sp.val = 0 := by omega
    simp [pop_of_empty h0, h0, raiseOob, raise, eq_comm]

theorem skipOnKey_next_iff {cond : Bool → Bool} {x : Reg} {s t : State} :
    skipOnKey cond x s = .next t ↔ ∃ h : (s.reg x).toNat < 16, t = s.skipIf (cond (s.keyHeld ⟨(s.reg x).toNat, h⟩)) := by
  unfold skipOnKey keyIndex
  by_cases h : (s.reg x).toNat < 16
  · simp [h, eq_comm]
  · simp [h, raiseOob, raise]

theorem skipOnKey_fault_iff {cond : Bool → Bool} {x : Reg} {s : State} {f : Fault} :
    skipOnKey cond x s = .fault f ↔ 15 < (s.reg x).toNat ∧ f = .outOfBounds .keyIndex := by
  unfold skipOnKey keyIndex
  by_cases h : (s.reg x).toNat < 16
  · simp [h]; omega
  · simp [h, raiseOob, raise, eq_comm]; omega

theorem length_bcdDigits (b : Byte) : (bcdDigits b).length = 3 := rfl

theorem execStoreBCD_next_iff {x : Reg} {s t : State} :
    execStoreBCD x s = .next t ↔
      s.base + 3 ≤ 4096 ∧ t = (s.setMem (s.mem.writeBytes s.base (bcdDigits (s.reg x)))).advance := by
  unfold execStoreBCD
  cases h : memWrite .memWrite s s.base (bcdDigits (s.reg x)) with
  | ok u =>
    obtain ⟨hr, rfl⟩ := memWrite_ok_iff.mp h
    rw [length_bcdDigits] at hr
    simp [done, hr, eq_comm]
  | error k =>
    obtain ⟨hr, rfl⟩ := memWrite_error_iff.mp h
    rw [length_bcdDigits] at hr
    simp [raiseOob, raise]; omega

theorem execStoreBCD_fault_iff {x : Reg} {s : State} {f : Fault} :
    execStoreBCD x s = .fault f ↔ 4096 < s.base + 3 ∧ f = .outOfBounds .memWrite := by
  unfold execStoreBCD
  cases h : memWrite .memWrite s s.base (bcdDigits (s.reg x)) with
  | ok u =>
    obtain ⟨hr, rfl⟩ := memWrite_ok_iff.mp h
    rw [length_bcdDigits] at hr
    simp [done]; omega
  | error k =>
    obtain ⟨hr, rfl⟩ := memWrite_error_iff.mp h
    rw [length_bcdDigits] at hr
    simp [raiseOob, raise, hr, eq_comm]

theorem execRegisterDump_next_iff {x : Reg} {s t : State} :
    execRegisterDump x s = .next t ↔
      s.base + (x.val + 1) ≤ 4096 ∧ t = (s.setMem (s.mem.writeBytes s.base (dumpBytes s x))).advance := by
  unfold execRegisterDump
  cases h : memWrite .memWrite s s.base (dumpBytes s x) with
  | ok u =>
    obtain ⟨hr, rfl⟩ := memWrite_ok_iff.mp h
    rw [length_dumpBytes] at hr
    simp [done, hr, eq_comm]
  | error k =>
    obtain ⟨hr, rfl⟩ := memWrite_error_iff.mp h
    rw [length_dumpBytes] at hr
    simp [raiseOob, raise]; omega

theorem execRegisterDump_fault_iff {x : Reg} {s : State} {f : Fault} :
    execRegisterDump x s = .fault f ↔ 4096 < s.base + (x.val + 1) ∧ f = .outOfBounds .memWrite := by
  unfold execRegisterDump
  cases h : memWrite .memWrite s s.base (dumpBytes s x) with
  | ok u =>
    obtain ⟨hr, rfl⟩ := memWrite_ok_iff.mp h
    rw [length_dumpBytes] at hr
    simp [done]; omega
  | error k =>
    obtain ⟨hr, rfl⟩ := memWrite_error_iff.mp h
    rw [length_dumpBytes] at hr
    simp [raiseOob, raise, hr, eq_comm]

theorem execRegisterLoad_next_iff {x : Reg} {s t : State} :
    execRegisterLoad x s = .next t ↔
      s.base + (x.val + 1) ≤ 4096 ∧ t = (s.setRegs (regsUpTo x) (s.mem.readBytes s.base (x.val + 1))).advance := by
  unfold execRegisterLoad
  cases h : memRead .memRead s s.base (x.val + 1) with
  | ok u =>
    obtain ⟨hr, rfl⟩ := memRead_ok_iff.mp h
    simp [done, hr, eq_comm]
  | error k =>
    obtain ⟨hr, rfl⟩ := memRead_error_iff.mp h
    simp [raiseOob, raise]; omega

theorem execRegisterLoad_fault_iff {x : Reg} {s : State} {f : Fault} :
    execRegisterLoad x s = .fault f ↔ 4096 < s.base + (x.val + 1) ∧ f = .outOfBounds .memRead := by
  unfold execRegisterLoad
  cases h : memRead .memRead s s.base (x.val + 1) with
  | ok u =>
    obtain ⟨hr, rfl⟩ := memRead_ok_iff.mp h
    simp [done]; omega
  | error k =>
    obtain ⟨hr, rfl⟩ := memRead_error_iff.mp h
    simp [raiseOob, raise, hr, eq_comm]

/-- The scan of a whole Draw (R152) over the bytes at I. -/
def drawScan (x y : Reg) (n : Nibble) (s : State) : Scan := drawSprite s x y (s.mem.readBytes s.base n.toNat)

theorem execDraw_next_iff {x y : Reg} {n : Nibble} {s t : State} :
    execDraw x y n s = .next t ↔
      (n = 0#4 ∨ s.base + n.toNat ≤ 4096) ∧ t = ((s.setFb (drawScan x y n s).1).setFlag (drawScan x y n s).2).advance := by
  unfold execDraw
  cases h : spriteRows s n with
  | ok rows =>
    obtain ⟨hr, rfl⟩ := spriteRows_ok_iff.mp h
    constructor
    · intro ht
      exact ⟨hr, (Host.Outcome.next.inj ht).symm⟩
    · rintro ⟨-, rfl⟩
      rfl
  | error k =>
    obtain ⟨hn, hr, rfl⟩ := spriteRows_error_iff.mp h
    simp [raiseOob, raise, hn]; omega

theorem execDraw_fault_iff {x y : Reg} {n : Nibble} {s : State} {f : Fault} :
    execDraw x y n s = .fault f ↔ (n ≠ 0#4 ∧ 4096 < s.base + n.toNat) ∧ f = .outOfBounds .memRead := by
  unfold execDraw
  cases h : spriteRows s n with
  | ok rows =>
    obtain ⟨hr, rfl⟩ := spriteRows_ok_iff.mp h
    simp only [done, reduceCtorEq, false_iff]
    rintro ⟨⟨hn, hlt⟩, -⟩
    rcases hr with hr | hr
    · exact hn hr
    · omega
  | error k =>
    obtain ⟨hn, hr, rfl⟩ := spriteRows_error_iff.mp h
    simp [raiseOob, raise, hn, hr, eq_comm]

theorem execBlockingGetKey_of_none {x : Reg} {s : State} (h : lowestKey s = none) : execBlockingGetKey x s = .next s := by
  simp [execBlockingGetKey, h]

theorem execBlockingGetKey_of_some {x k : Reg} {s : State} (h : lowestKey s = some k) :
    execBlockingGetKey x s = .next (s.setReg x (keyByte k)).advance := by
  simp [execBlockingGetKey, h, done]

end Sys2Proof.Machine
end

