-- ==== Sys2Proof/Laws/PerInstr.lean ====
section
/-! SUPPORT. The family RowMatch: an instruction's word lies in its row of the decode table R66, `(w & mask) == match`. One lemma per
constructor. -/

namespace Sys2Proof

theorem and_ones4 (a : Nibble) : a &&& 0xF#4 = a := by revert a; decide

theorem and_ones8 (a : Byte) : a &&& 0xFF#8 = a := by revert a; decide

theorem formA_and_opcode (op : Nibble) (addr : Addr) : formA op addr &&& 0xF000#16 = op ++ 0#12 := by
  have h : (0xF000#16 : BitVec 16) = (0xF#4 ++ 0x000#12 : BitVec 16) := by decide
  rw [h, formA, BitVec.and_append, and_ones4]
  simp

theorem formRC_and_opcode (op : Nibble) (x : Reg) (nn : Byte) : formRC op x nn &&& 0xF000#16 = op ++ 0#12 := by
  rw [← formA_fields (formRC op x nn), formA_and_opcode, fieldN0_formRC]

theorem formRR_and_opcode (op : Nibble) (x y : Reg) (n : Nibble) : formRR op x y n &&& 0xF000#16 = op ++ 0#12 := by
  rw [← formA_fields (formRR op x y n), formA_and_opcode, fieldN0_formRR]

theorem formRC_and_ends (op : Nibble) (x : Reg) (nn : Byte) : formRC op x nn &&& 0xF0FF#16 = formRC op 0 nn := by
  have h : (0xF0FF#16 : BitVec 16) = ((0xF#4 ++ 0x0#4 : BitVec 8) ++ 0xFF#8 : BitVec 16) := by decide
  rw [h, formRC, formRC, BitVec.and_append, BitVec.and_append, and_ones8, and_ones4]
  simp

theorem formRR_and_ends (op : Nibble) (x y : Reg) (n : Nibble) : formRR op x y n &&& 0xF00F#16 = formRR op 0 0 n := by
  have h : (0xF00F#16 : BitVec 16) = ((0xF#4 ++ 0x0#4 : BitVec 8) ++ (0x0#4 ++ 0xF#4 : BitVec 8) : BitVec 16) := by decide
  rw [h, formRR, formRR, BitVec.and_append, BitVec.and_append, BitVec.and_append, and_ones4, and_ones4]
  simp

end Sys2Proof

/-- R66: "A word `w` selects the row with `(w & mask) == match`". -/
def Sys2Proof.Laws.RowMatch.Statement (i : Sys2Proof.Instr) : Prop :=
  Sys2Proof.encode i &&& i.row.1 = i.row.2

open Sys2Proof

theorem Sys2Proof.Laws.RowMatch.clearScreen : Sys2Proof.Laws.RowMatch.Statement (.clearScreen) :=
  (formRC_and_ends _ _ _).trans rfl

theorem Sys2Proof.Laws.RowMatch.returnFromSub : Sys2Proof.Laws.RowMatch.Statement (.returnFromSub) :=
  (formRC_and_ends _ _ _).trans rfl

theorem Sys2Proof.Laws.RowMatch.machineCodeCall (addr : Addr) : Sys2Proof.Laws.RowMatch.Statement (.machineCodeCall addr) :=
  (formA_and_opcode _ _).trans rfl

theorem Sys2Proof.Laws.RowMatch.jump (addr : Addr) : Sys2Proof.Laws.RowMatch.Statement (.jump addr) :=
  (formA_and_opcode _ _).trans rfl

theorem Sys2Proof.Laws.RowMatch.callSub (addr : Addr) : Sys2Proof.Laws.RowMatch.Statement (.callSub addr) :=
  (formA_and_opcode _ _).trans rfl

theorem Sys2Proof.Laws.RowMatch.skipIfEqualConst (x : Reg) (nn : Byte) : Sys2Proof.Laws.RowMatch.Statement (.skipIfEqualConst x nn) :=
  (formRC_and_opcode _ _ _).trans rfl

theorem Sys2Proof.Laws.RowMatch.skipIfNotEqualConst (x : Reg) (nn : Byte) : Sys2Proof.Laws.RowMatch.Statement (.skipIfNotEqualConst x nn) :=
  (formRC_and_opcode _ _ _).trans rfl

theorem Sys2Proof.Laws.RowMatch.skipIfRegEqual (x y : Reg) : Sys2Proof.Laws.RowMatch.Statement (.skipIfRegEqual x y) :=
  (formRR_and_ends _ _ _ _).trans rfl

theorem Sys2Proof.Laws.RowMatch.setConst (x : Reg) (nn : Byte) : Sys2Proof.Laws.RowMatch.Statement (.setConst x nn) :=
  (formRC_and_opcode _ _ _).trans rfl

theorem Sys2Proof.Laws.RowMatch.addConst (x : Reg) (nn : Byte) : Sys2Proof.Laws.RowMatch.Statement (.addConst x nn) :=
  (formRC_and_opcode _ _ _).trans rfl

theorem Sys2Proof.Laws.RowMatch.set (x y : Reg) : Sys2Proof.Laws.RowMatch.Statement (.set x y) :=
  (formRR_and_ends _ _ _ _).trans rfl

theorem Sys2Proof.Laws.RowMatch.or (x y : Reg) : Sys2Proof.Laws.RowMatch.Statement (.or x y) :=
  (formRR_and_ends _ _ _ _).trans rfl

theorem Sys2Proof.Laws.RowMatch.and (x y : Reg) : Sys2Proof.Laws.RowMatch.Statement (.and x y) :=
  (formRR_and_ends _ _ _ _).trans rfl

theorem Sys2Proof.Laws.RowMatch.xor (x y : Reg) : Sys2Proof.Laws.RowMatch.Statement (.xor x y) :=
  (formRR_and_ends _ _ _ _).trans rfl

theorem Sys2Proof.Laws.RowMatch.addWithCarry (x y : Reg) : Sys2Proof.Laws.RowMatch.Statement (.addWithCarry x y) :=
  (formRR_and_ends _ _ _ _).trans rfl

theorem Sys2Proof.Laws.RowMatch.subWithBorrow (x y : Reg) : Sys2Proof.Laws.RowMatch.Statement (.subWithBorrow x y) :=
  (formRR_and_ends _ _ _ _).trans rfl

theorem Sys2Proof.Laws.RowMatch.shiftRight (x y : Reg) : Sys2Proof.Laws.RowMatch.Statement (.shiftRight x y) :=
  (formRR_and_ends _ _ _ _).trans rfl

theorem Sys2Proof.Laws.RowMatch.reverseSub (x y : Reg) : Sys2Proof.Laws.RowMatch.Statement (.reverseSub x y) :=
  (formRR_and_ends _ _ _ _).trans rfl

theorem Sys2Proof.Laws.RowMatch.shiftLeft (x y : Reg) : Sys2Proof.Laws.RowMatch.Statement (.shiftLeft x y) :=
  (formRR_and_ends _ _ _ _).trans rfl

theorem Sys2Proof.Laws.RowMatch.skipIfRegNotEqual (x y : Reg) : Sys2Proof.Laws.RowMatch.Statement (.skipIfRegNotEqual x y) :=
  (formRR_and_ends _ _ _ _).trans rfl

theorem Sys2Proof.Laws.RowMatch.setAddressRegister (addr : Addr) : Sys2Proof.Laws.RowMatch.Statement (.setAddressRegister addr) :=
  (formA_and_opcode _ _).trans rfl

theorem Sys2Proof.Laws.RowMatch.jumpWithOffset (addr : Addr) : Sys2Proof.Laws.RowMatch.Statement (.jumpWithOffset addr) :=
  (formA_and_opcode _ _).trans rfl

theorem Sys2Proof.Laws.RowMatch.random (x : Reg) (nn : Byte) : Sys2Proof.Laws.RowMatch.Statement (.random x nn) :=
  (formRC_and_opcode _ _ _).trans rfl

theorem Sys2Proof.Laws.RowMatch.draw (x y : Reg) (n : Nibble) : Sys2Proof.Laws.RowMatch.Statement (.draw x y n) :=
  (formRR_and_opcode _ _ _ _).trans rfl

theorem Sys2Proof.Laws.RowMatch.skipIfKey (x : Reg) : Sys2Proof.Laws.RowMatch.Statement (.skipIfKey x) :=
  (formRC_and_ends _ _ _).trans rfl

theorem Sys2Proof.Laws.RowMatch.skipIfNotKey (x : Reg) : Sys2Proof.Laws.RowMatch.Statement (.skipIfNotKey x) :=
  (formRC_and_ends _ _ _).trans rfl

theorem Sys2Proof.Laws.RowMatch.getDelay (x : Reg) : Sys2Proof.Laws.RowMatch.Statement (.getDelay x) :=
  (formRC_and_ends _ _ _).trans rfl

theorem Sys2Proof.Laws.RowMatch.blockingGetKey (x : Reg) : Sys2Proof.Laws.RowMatch.Statement (.blockingGetKey x) :=
  (formRC_and_ends _ _ _).trans rfl

theorem Sys2Proof.Laws.RowMatch.setDelay (x : Reg) : Sys2Proof.Laws.RowMatch.Statement (.setDelay x) :=
  (formRC_and_ends _ _ _).trans rfl

theorem Sys2Proof.Laws.RowMatch.setSound (x : Reg) : Sys2Proof.Laws.RowMatch.Statement (.setSound x) :=
  (formRC_and_ends _ _ _).trans rfl

theorem Sys2Proof.Laws.RowMatch.addToAddressRegister (x : Reg) : Sys2Proof.Laws.RowMatch.Statement (.addToAddressRegister x) :=
  (formRC_and_ends _ _ _).trans rfl

theorem Sys2Proof.Laws.RowMatch.setAddressRegisterToSpriteFor (x : Reg) : Sys2Proof.Laws.RowMatch.Statement (.setAddressRegisterToSpriteFor x) :=
  (formRC_and_ends _ _ _).trans rfl

theorem Sys2Proof.Laws.RowMatch.storeBCD (x : Reg) : Sys2Proof.Laws.RowMatch.Statement (.storeBCD x) :=
  (formRC_and_ends _ _ _).trans rfl

theorem Sys2Proof.Laws.RowMatch.registerDump (x : Reg) : Sys2Proof.Laws.RowMatch.Statement (.registerDump x) :=
  (formRC_and_ends _ _ _).trans rfl

theorem Sys2Proof.Laws.RowMatch.registerLoad (x : Reg) : Sys2Proof.Laws.RowMatch.Statement (.registerLoad x) :=
  (formRC_and_ends _ _ _).trans rfl
end

