-- ==== Sys2Proof/Laws/Masks.lean ====
section
/-! SUPPORT. The masks of R66 as fields: what `w &&& mask` says of the fields of w. -/

namespace Sys2Proof

theorem and_opcodeMask (w : Word) : w &&& 0xF000#16 = (fieldN0 w ++ 0#12 : BitVec 16) := by
  rw [← formA_fields w, formA_and_opcode]; simp

theorem and_lowByteMask (w : Word) : w &&& 0x00FF#16 = (0#8 ++ fieldNN w : BitVec 16) := by
  have hm : (0x00FF#16 : BitVec 16) = (0x00#8 ++ 0xFF#8 : BitVec 16) := by decide
  have hw : w = (w.extractLsb' 8 8 ++ fieldNN w : BitVec 16) :=
    (BitVec.extractLsb'_append_extractLsb' (w := 8) (len := 8)).symm
  conv_lhs => rw [hm, hw]
  rw [BitVec.and_append, and_ones8]; simp

theorem and_lowNibbleMask (w : Word) : w &&& 0x000F#16 = (0#12 ++ fieldN w : BitVec 16) := by
  have hm : (0x000F#16 : BitVec 16) = (0x000#12 ++ 0xF#4 : BitVec 16) := by decide
  have hw : w = (w.extractLsb' 4 12 ++ fieldN w : BitVec 16) :=
    (BitVec.extractLsb'_append_extractLsb' (w := 12) (len := 4)).symm
  conv_lhs => rw [hm, hw]
  rw [BitVec.and_append, and_ones4]; simp

theorem fieldN0_of_opcodeMask {w m : Word} (h : w &&& 0xF000#16 = m) : fieldN0 w = fieldN0 m := by
  subst h
  simp only [fieldN0, BitVec.extractLsb'_and]
  exact (and_ones4 _).symm

theorem fields_of_byteMask {w m : Word} (h : w &&& 0xF0FF#16 = m) : fieldN0 w = fieldN0 m ∧ fieldNN w = fieldNN m := by
  subst h
  simp only [fieldN0, fieldNN, BitVec.extractLsb'_and]
  exact ⟨(and_ones4 _).symm, (and_ones8 _).symm⟩

theorem fields_of_nibbleMask {w m : Word} (h : w &&& 0xF00F#16 = m) : fieldN0 w = fieldN0 m ∧ fieldN w = fieldN m := by
  subst h
  simp only [fieldN0, fieldN, BitVec.extractLsb'_and]
  exact ⟨(and_ones4 _).symm, (and_ones4 _).symm⟩

end Sys2Proof
end

