-- ==== Sys2Proof/Tests/Slice0.lean ====
section
/-! SUPPORT. The model's own tests, one step each on a small state; the expected values are those of spec/95_test_vectors.md (its vector
ids stand in the comments) or are worked by hand from the rule named. After them, the witnesses: for every statement with hypotheses, a
concrete state and operands that meet them. -/

namespace Sys2Proof.Tests

open Sys2Proof.Machine

/-! ### Helpers -/

/-- The reset state with registers set. -/
def withV (rs : List (Reg × Byte)) : State := rs.foldl (fun s r => s.setReg r.1 r.2) State.reset

/-- Bytes placed in memory at an address. -/
def poke (a : Nat) (bs : List Byte) (s : State) : State := s.setMem (s.mem.writeBytes a bs)

/-- One key held. -/
def hold (k : Reg) (s : State) : State := { s with keys := s.keys.set k.val true }

/-- One clear framebuffer cell set, by its index (R20). -/
def light (k : Nat) (s : State) : State := s.setFb (Framebuffer.toggle s.fb (k % 64) (k / 64))

/-- One step of the word w, placed where it is fetched. -/
def run (w : Nat) (s : State) : Result := step (s.withFetchWord 16 w)

/-- What f sees of the next state; none when the step stops. -/
def look {α : Type} (r : Result) (f : State → α) : Option α :=
  match r with
  | .next s => some (f s)
  | _ => none

/-- The fault of a step; none when it completes. -/
def faultOf (r : Result) : Option Fault :=
  match r with
  | .fault f => some f
  | _ => none

/-! ### WellFormed: the ill-formed terms are refused -/

theorem test_wf_refuses_clearScreen_word : (Instr.machineCodeCall 0x00E).wf = false := by decide
theorem test_wf_refuses_returnFromSub_word : (Instr.machineCodeCall 0x3EE).wf = false := by decide
theorem test_wf_accepts_00E0 : (Instr.machineCodeCall 0x0E0).wf = true := by decide

/-! ### Decoding (95_test_vectors.md 2.1), every row of R66 by a word written out -/

theorem test_decode_group0 :
    decode 0x000E#16 = .ok .clearScreen ∧ decode 0x0A0E#16 = .ok .clearScreen ∧ decode 0x00EE#16 = .ok .returnFromSub ∧
    decode 0x0FEE#16 = .ok .returnFromSub ∧ decode 0x00E0#16 = .ok (.machineCodeCall 0x0E0) ∧
    decode 0x001E#16 = .ok (.machineCodeCall 0x01E) ∧ decode 0x0FFF#16 = .ok (.machineCodeCall 0xFFF) := by decide

theorem test_decode_groups1to7 :
    decode 0x1ABC#16 = .ok (.jump 0xABC) ∧ decode 0x2400#16 = .ok (.callSub 0x400) ∧
    decode 0x3A42#16 = .ok (.skipIfEqualConst 0xA 0x42) ∧ decode 0x4A42#16 = .ok (.skipIfNotEqualConst 0xA 0x42) ∧
    decode 0x5AB0#16 = .ok (.skipIfRegEqual 0xA 0xB) ∧ decode 0x5AB1#16 = .error .unknown5 ∧
    decode 0x6C7F#16 = .ok (.setConst 0xC 0x7F) ∧ decode 0x7C01#16 = .ok (.addConst 0xC 0x01) := by decide

theorem test_decode_group8 :
    decode 0x8AB0#16 = .ok (.set 0xA 0xB) ∧ decode 0x8AB1#16 = .ok (.or 0xA 0xB) ∧ decode 0x8AB2#16 = .ok (.and 0xA 0xB) ∧
    decode 0x8AB3#16 = .ok (.xor 0xA 0xB) ∧ decode 0x8AB4#16 = .ok (.addWithCarry 0xA 0xB) ∧
    decode 0x8AB5#16 = .ok (.subWithBorrow 0xA 0xB) ∧ decode 0x8AB6#16 = .ok (.shiftRight 0xA 0xB) ∧
    decode 0x8AB7#16 = .ok (.reverseSub 0xA 0xB) ∧ decode 0x8ABE#16 = .ok (.shiftLeft 0xA 0xB) ∧
    decode 0x8AB8#16 = .error .unknown8 ∧ decode 0x8ABD#16 = .error .unknown8 ∧ decode 0x8ABF#16 = .error .unknown8 := by decide

theorem test_decode_groups9toD :
    decode 0x9AB0#16 = .ok (.skipIfRegNotEqual 0xA 0xB) ∧ decode 0x9ABF#16 = .error .unknown9 ∧
    decode 0xA123#16 = .ok (.setAddressRegister 0x123) ∧ decode 0xB123#16 = .ok (.jumpWithOffset 0x123) ∧
    decode 0xC3F0#16 = .ok (.random 0x3 0xF0) ∧ decode 0xD125#16 = .ok (.draw 0x1 0x2 5) ∧
    decode 0xD120#16 = .ok (.draw 0x1 0x2 0) := by decide

theorem test_decode_groupsEF :
    decode 0xE39E#16 = .ok (.skipIfKey 3) ∧ decode 0xE3A1#16 = .ok (.skipIfNotKey 3) ∧ decode 0xE3A0#16 = .error .unknownE ∧
    decode 0xF307#16 = .ok (.getDelay 3) ∧ decode 0xF30A#16 = .ok (.blockingGetKey 3) ∧ decode 0xF315#16 = .ok (.setDelay 3) ∧
    decode 0xF318#16 = .ok (.setSound 3) ∧ decode 0xF31E#16 = .ok (.addToAddressRegister 3) ∧
    decode 0xF329#16 = .ok (.setAddressRegisterToSpriteFor 3) ∧ decode 0xF333#16 = .ok (.storeBCD 3) ∧
    decode 0xF355#16 = .ok (.registerDump 3) ∧ decode 0xF365#16 = .ok (.registerLoad 3) ∧ decode 0xF375#16 = .error .unknownF := by
  decide

/-- R60: one byte is no instruction; the bytes after the word are given back. -/
theorem test_decodeBytes :
    decodeBytes [0x12, 0x04, 0x77] = .ok (.jump 0x204, [0x77]) ∧ decodeBytes [0x12] = .error .truncated := by decide

/-- The numbering of the opcode table: bit 0 of the number is bit 0 of the word. -/
theorem test_decodeTableWord :
    decodeTableWord 16 0xD015 = some (.draw 0 1 5) ∧ decodeTableWord 16 0x000E = some .clearScreen ∧ decodeTableWord 16 0x5011 = none := by
  decide

/-- R72's examples. -/
theorem test_asm : (Instr.callSub 0x400).asm = "CallSub(1024)" ∧ (Instr.registerDump 3).asm = "RegisterDump(3)" ∧
    Instr.clearScreen.asm = "ClearScreen" := by decide

/-! ### The step -/

/-- S1 and S2: the byte at the lower address is the high byte. -/
theorem test_S1 : look (step (poke 0x200 [0x12, 0x34] State.reset)) State.pc = some 0x234 := by decide
theorem test_S2 : look (step (poke 0x200 [0x34, 0x12] State.reset)) State.pc = some 0x202 := by decide
theorem test_S3 : look (step (State.reset.setPc 0xFFE)) State.pc = some 0x1000 := by decide
theorem test_S4 : faultOf (step (State.reset.setPc 0xFFF)) = some (.outOfBounds .fetch) := by decide
theorem test_S6 : look (step (poke 0x201 [0x60, 0x07] (State.reset.setPc 0x201))) (fun s => (s.reg 0, s.pc)) = some (0x07, 0x203) := by
  decide
theorem test_S7 : hostStep (((State.reset.setDt 3).setSt 1).withFetchWord 16 0x5011) =
    (((State.reset.setDt 3).setSt 1).withFetchWord 16 0x5011, .faulted (.unknownOpcode 0x5011 0x0200)) := by decide
theorem test_S8 : look (run 0x0000 ((State.reset.setDt 3).setSt 2)) (fun s => (s.dt, s.st, s.outcome)) = some (2, 1, .cont) := by decide
theorem test_S9 : look (run 0x0000 ((State.reset.setDt 1).setSt 1)) (fun s => (s.dt, s.st, s.outcome)) = some (0, 0, .beeped) := by
  decide
/-- S11: fetching from the font. -/
theorem test_S11 : faultOf (step (State.reset.setPc 0)) = some (.unknownOpcode 0xF090 0) := by decide

/-! ### Flow -/

theorem test_F2 : look (run 0x00E0 (light 5 State.reset)) (fun s => (s.pc, s.cell 5 0)) = some (0x202, true) := by decide
theorem test_F3 : look (run 0x1204 (State.reset.setPc 0x20A)) State.pc = some 0x204 := by decide
theorem test_F8 : look (run 0x2400 (State.reset.setSp 15)) (fun s => (s.slot 15, s.sp, s.pc)) = some (0x0202, 16, 0x400) := by decide
theorem test_F9 : faultOf (run 0x2400 (State.reset.setSp 16)) = some (.outOfBounds .stackOverflow) := by decide
/-- F13: SP goes down first, then the slot is read; the slot keeps its value. -/
theorem test_F13 : look (run 0x03EE (((State.reset.setSlot 0 0x0206).setSlot 1 0x0FFF).setSp 2))
    (fun s => (s.sp, s.pc, s.slot 1)) = some (1, 0x0FFF, 0x0FFF) := by decide
theorem test_F12 : faultOf (run 0x00EE State.reset) = some (.outOfBounds .stackUnderflow) := by decide
theorem test_F15 : look (run 0xBFFF (withV [(0, 0xFF)])) State.pc = some 0x10FE := by decide
theorem test_F16 : look (run 0xB208 (withV [(1, 0x55)])) State.pc = some 0x208 := by decide

/-! ### Skips -/

theorem test_K1 : look (run 0x3342 (withV [(3, 0x42)])) State.pc = some 0x204 ∧ look (run 0x3342 (withV [(3, 0x41)])) State.pc = some 0x202 := by
  decide
theorem test_K2 : look (run 0x4342 (withV [(3, 0x42)])) State.pc = some 0x202 ∧ look (run 0x4342 (withV [(3, 0x41)])) State.pc = some 0x204 := by
  decide
theorem test_K3 : look (run 0x5120 (withV [(1, 0x10), (2, 0x10)])) State.pc = some 0x204 ∧
    look (run 0x5120 (withV [(1, 0x10), (2, 0x11)])) State.pc = some 0x202 := by decide
theorem test_K4 : look (run 0x9120 (withV [(1, 0x10), (2, 0x11)])) State.pc = some 0x204 ∧
    look (run 0x9120 (withV [(1, 0x10), (2, 0x10)])) State.pc = some 0x202 := by decide
/-- K5 and K5b: the key tested is V[3], not 3. -/
theorem test_K5 : look (run 0xE39E (hold 7 (withV [(3, 7)]))) State.pc = some 0x204 ∧
    look (run 0xE39E (hold 3 (withV [(3, 7)]))) State.pc = some 0x202 := by decide
theorem test_K5f : faultOf (run 0xE39E (withV [(3, 0x10)])) = some (.outOfBounds .keyIndex) := by decide
theorem test_K5c : look (run 0xE3A1 (hold 7 (withV [(3, 7)]))) State.pc = some 0x202 ∧
    look (run 0xE3A1 (withV [(3, 7)])) State.pc = some 0x204 := by decide
theorem test_K5g : faultOf (run 0xE3A1 (withV [(3, 0xFF)])) = some (.outOfBounds .keyIndex) := by decide

/-! ### Constants, logic, arithmetic, shifts, Random -/

theorem test_A2 : look (run 0x6F99 (withV [(15, 1)])) (fun s => (s.reg 15, s.pc)) = some (0x99, 0x202) := by decide
theorem test_A5 : look (run 0x7001 (withV [(0, 0xFF), (15, 1)])) (fun s => (s.reg 0, s.reg 15)) = some (0, 1) := by decide
theorem test_A6 : look (run 0x8120 (withV [(2, 0x7E)])) (fun s => (s.reg 1, s.reg 2)) = some (0x7E, 0x7E) := by decide
theorem test_A7 : look (run 0x8121 (withV [(1, 0xF0), (2, 0x0F), (15, 1)])) (fun s => (s.reg 1, s.reg 15)) = some (0xFF, 1) := by decide
theorem test_A8 : look (run 0x8122 (withV [(1, 0xF3), (2, 0x3F)])) (fun s => s.reg 1) = some 0x33 := by decide
theorem test_A9 : look (run 0x8123 (withV [(1, 0xFF), (2, 0x0F)])) (fun s => s.reg 1) = some 0xF0 := by decide
theorem test_A13 : look (run 0x8124 (withV [(1, 0xFF), (2, 0x01)])) (fun s => (s.reg 1, s.reg 15)) = some (0, 1) := by decide
/-- A16: with X = 0xF the flag is written last. -/
theorem test_A16 : look (run 0x8F24 (withV [(15, 0xF0), (2, 0x20)])) (fun s => s.reg 15) = some 1 := by decide
theorem test_A20 : look (run 0x8125 (withV [(1, 3), (2, 5)])) (fun s => (s.reg 1, s.reg 15)) = some (0xFE, 0) := by decide
theorem test_A24 : look (run 0x8F25 (withV [(15, 5), (2, 3)])) (fun s => s.reg 15) = some 1 := by decide
/-- A26: the source is V[Y]. -/
theorem test_A26 : look (run 0x8126 (withV [(1, 0xAA), (2, 5)])) (fun s => (s.reg 1, s.reg 15, s.reg 2)) = some (2, 1, 5) := by decide
theorem test_A31 : look (run 0x81F6 (withV [(15, 3)])) (fun s => (s.reg 1, s.reg 15)) = some (1, 1) := by decide
theorem test_A33 : look (run 0x8127 (withV [(1, 5), (2, 3)])) (fun s => (s.reg 1, s.reg 15)) = some (0xFE, 0) := by decide
theorem test_A34 : look (run 0x8127 (withV [(1, 7), (2, 7)])) (fun s => (s.reg 1, s.reg 15)) = some (0, 1) := by decide
theorem test_A35 : look (run 0x812E (withV [(1, 0xAA), (2, 0x81)])) (fun s => (s.reg 1, s.reg 15)) = some (2, 1) := by decide
theorem test_A38 : look (run 0x8F2E (withV [(2, 0x40)])) (fun s => s.reg 15) = some 0 := by decide
/-- A39 and A42, for the byte 0xA7 on the port. -/
theorem test_A39 : look (setMasked 3 0x0F 0xA7 State.reset) (fun s => s.reg 3) = some 0x07 := by decide
/-- A40: the mask 0 gives 0 whatever the byte is; one byte is counted as taken. -/
theorem test_A40 : look (exec (.random 3 0x00) State.reset) (fun s => (s.reg 3, s.draws)) = some (0, 1) := by
  simp [exec, execRandom, setMasked, done, look, takeRandom, State.reset]

/-! ### The address register and memory -/

theorem test_M1 : look (run 0xA2F0 State.reset) State.i = some 0x02F0 := by decide
theorem test_M3 : look (run 0xF21E ((withV [(2, 1)]).setI 0x0FFF)) (fun s => (s.i, s.reg 15)) = some (0, 0) := by decide
theorem test_M9 : look (run 0xF429 (withV [(4, 0xFF)])) State.i = some 0x04FB := by decide
/-- M10: the register's value, not its id. -/
theorem test_M10 : look (run 0xFA29 (withV [(10, 3)])) State.i = some 0x000F := by decide
theorem test_M11 : look (run 0xF033 ((withV [(0, 0x9C)]).setI 0x300)) (fun s => (s.mem.readBytes 0x300 3, s.i)) =
    some ([1, 5, 6], 0x300) := by decide
theorem test_M16 : faultOf (run 0xF033 ((withV [(0, 0x64)]).setI 0xFFE)) = some (.outOfBounds .memWrite) := by decide
theorem test_M17 : look (run 0xF355 ((withV [(0, 1), (1, 2), (2, 3), (3, 4), (4, 9)]).setI 0x500))
    (fun s => (s.mem.readBytes 0x500 5, s.i)) = some ([1, 2, 3, 4, 0], 0x500) := by decide
theorem test_M20 : faultOf (run 0xFF55 (State.reset.setI 0xFF1)) = some (.outOfBounds .memWrite) := by decide
/-- M24: the font is in memory at reset, and V[5] is not loaded. -/
theorem test_M24 : look (run 0xF465 (withV [(5, 0x99)])) (fun s => [s.reg 0, s.reg 1, s.reg 2, s.reg 3, s.reg 4, s.reg 5]) =
    some [0xF0, 0x90, 0x90, 0x90, 0xF0, 0x99] := by decide
theorem test_M26 : faultOf (run 0xFF65 (State.reset.setI 0xFF1)) = some (.outOfBounds .memRead) := by decide

/-! ### Display -/

theorem test_DR1 : look (run 0x000E (light 2047 ((light 5 State.reset).setReg 15 1))) (fun s => (s.fb, s.reg 15)) =
    some (Vector.replicate 32 0, 1) := by decide
/-- DR7: clipped at the right edge, no wrap. -/
theorem test_DR7 : look (run 0xD011 (poke 0x300 [0xFF] ((withV [(0, 60)]).setI 0x300))) (fun s => (s.fb[0], s.fb[1], s.reg 15)) =
    some (0xF000000000000000, 0, 0) := by decide
/-- DR13: the collision of the first row stays although the second row does not collide. -/
theorem test_DR13 : look (run 0xD012 (light 0 (poke 0x300 [0x80, 0x80] (State.reset.setI 0x300)))) (fun s => (s.fb[0], s.fb[1], s.reg 15)) =
    some (0, 1, 1) := by decide

/-! ### Timers and keys -/

theorem test_TM1 : look (run 0xF307 (State.reset.setDt 0x10)) (fun s => (s.reg 3, s.dt)) = some (0x10, 0x0F) := by decide
theorem test_TM3 : look (run 0xF315 (withV [(3, 5)])) State.dt = some 4 := by decide
theorem test_TM7 : look (run 0xF018 (withV [(0, 1)])) (fun s => (s.st, s.outcome)) = some (0, .beeped) := by decide
theorem test_TM9 : look (run 0xF018 (State.reset.setSt 1)) (fun s => (s.st, s.outcome)) = some (0, .cont) := by decide
theorem test_K6 : look (run 0xF10A (hold 7 (hold 3 (State.reset.setPc 0x204)))) (fun s => (s.reg 1, s.pc)) = some (3, 0x206) := by decide
theorem test_K9 : look (run 0xF10A ((State.reset.setPc 0x204).setSt 1)) (fun s => (s.pc, s.st, s.outcome)) = some (0x204, 0, .beeped) := by
  decide

/-! ### Host operations -/

theorem test_H1 : hostReset fontTable (poke 0x10 [0x00, 0x01] (hold 2 (((withV [(3, 7)]).setI 0x123).setSp 4))) = State.reset := by decide
theorem test_H3 : (afterHostOp (.loadProgram [1, 2]) (poke 0x200 [0xAA, 0xAA, 0xAA] (State.reset.setPc 0x300))).mem.readBytes 0x200 4 =
    [1, 2, 0xAA, 0] := by decide
theorem test_H6 : (afterHostOp (.setKeys (Vector.ofFn fun k => decide (k.val = 4))) (hold 1 State.reset)).keys =
    (hold 4 State.reset).keys := by decide

/-! ### Witnesses: each statement's hypotheses are met together, its clauses at their boundaries -/

theorem witness_DecodeOfEncodeReturnsInstruction : (Instr.machineCodeCall 0x00D).wf = true ∧ (Instr.draw 15 15 15).wf = true := by decide

theorem witness_EncodeOfDecodeReturnsWord :
    decode 0x0F0E#16 = .ok .clearScreen ∧ decode 0x000F#16 = .ok (.machineCodeCall 0x00F) ∧ decode 0xDFFF#16 = .ok (.draw 15 15 15) := by
  decide

theorem witness_DecodeFollowsTheOpcodeTable :
    0x0F0E#16 &&& 0xF0FF#16 = 0x000E#16 ∧ 0x0FEE#16 &&& 0xF0FF#16 = 0x00EE#16 ∧
    (0x0FFF#16 &&& 0xF000#16 = 0x0000#16 ∧ 0x0FFF#16 &&& 0xF0FF#16 ≠ 0x000E#16 ∧ 0x0FFF#16 &&& 0xF0FF#16 ≠ 0x00EE#16) ∧
    0x1FFF#16 &&& 0xF000#16 = 0x1000#16 ∧ 0x2FFF#16 &&& 0xF000#16 = 0x2000#16 ∧ 0x3FFF#16 &&& 0xF000#16 = 0x3000#16 ∧
    0x4FFF#16 &&& 0xF000#16 = 0x4000#16 ∧ 0x5FF0#16 &&& 0xF00F#16 = 0x5000#16 ∧ 0x6FFF#16 &&& 0xF000#16 = 0x6000#16 ∧
    0x7FFF#16 &&& 0xF000#16 = 0x7000#16 ∧ 0x8FF0#16 &&& 0xF00F#16 = 0x8000#16 ∧ 0x8FF1#16 &&& 0xF00F#16 = 0x8001#16 ∧
    0x8FF2#16 &&& 0xF00F#16 = 0x8002#16 ∧ 0x8FF3#16 &&& 0xF00F#16 = 0x8003#16 ∧ 0x8FF4#16 &&& 0xF00F#16 = 0x8004#16 ∧
    0x8FF5#16 &&& 0xF00F#16 = 0x8005#16 ∧ 0x8FF6#16 &&& 0xF00F#16 = 0x8006#16 ∧ 0x8FF7#16 &&& 0xF00F#16 = 0x8007#16 ∧
    0x8FFE#16 &&& 0xF00F#16 = 0x800E#16 ∧ 0x9FF0#16 &&& 0xF00F#16 = 0x9000#16 ∧ 0xAFFF#16 &&& 0xF000#16 = 0xA000#16 ∧
    0xBFFF#16 &&& 0xF000#16 = 0xB000#16 ∧ 0xCFFF#16 &&& 0xF000#16 = 0xC000#16 ∧ 0xDFFF#16 &&& 0xF000#16 = 0xD000#16 ∧
    0xEF9E#16 &&& 0xF0FF#16 = 0xE09E#16 ∧ 0xEFA1#16 &&& 0xF0FF#16 = 0xE0A1#16 ∧ 0xFF07#16 &&& 0xF0FF#16 = 0xF007#16 ∧
    0xFF0A#16 &&& 0xF0FF#16 = 0xF00A#16 ∧ 0xFF15#16 &&& 0xF0FF#16 = 0xF015#16 ∧ 0xFF18#16 &&& 0xF0FF#16 = 0xF018#16 ∧
    0xFF1E#16 &&& 0xF0FF#16 = 0xF01E#16 ∧ 0xFF29#16 &&& 0xF0FF#16 = 0xF029#16 ∧ 0xFF33#16 &&& 0xF0FF#16 = 0xF033#16 ∧
    0xFF55#16 &&& 0xF0FF#16 = 0xF055#16 ∧ 0xFF65#16 &&& 0xF0FF#16 = 0xF065#16 := by decide

/-- At the last pc that can be fetched from. -/
theorem witness_StepRunsTheDecodedInstruction : (State.reset.setPc 0xFFE).pc.toNat + 2 ≤ 4096 ∧
    decode ((State.reset.setPc 0xFFE).byteAt 0xFFE ++ (State.reset.setPc 0xFFE).byteAt 0xFFF) = .ok (.machineCodeCall 0) := by decide

theorem witness_PlacedWordIsFetched : (State.reset.setPc 0xFFE).pc.toNat + 2 ≤ 4096 ∧ 0 ≠ 0xFFE ∧ 0 ≠ 0xFFF := by decide

theorem witness_FetchFaultsExactlyPastTheEnd : 4096 ≤ (State.reset.setPc 0xFFF).pc.toNat + 1 ∧
    (State.reset.setPc 0xFFE).pc.toNat + 1 < 4096 := by decide

theorem witness_UnknownWordFaultsInertly : State.reset.pc.toNat + 2 ≤ 4096 ∧ decode 0x5011#16 = .error .unknown5 ∧
    (poke 0x200 [0x50, 0x11] State.reset).byteAt 0x200 ++ (poke 0x200 [0x50, 0x11] State.reset).byteAt 0x201 = (0x5011#16 : BitVec 16) ∧
    faultOf (step (poke 0x200 [0x50, 0x11] State.reset)) = some (.unknownOpcode 0x5011 0x200) := by decide

theorem witness_TickFollowsTheEffect : step State.reset = .next (State.reset.setPc 0x202) ∧
    step (State.reset.setPc 0xFFF) = .fault (.outOfBounds .fetch) := ⟨rfl, rfl⟩

/-- Two SetSound instructions in a row that write 1: both steps beep. -/
theorem witness_BeepIsOneShot : ∃ t u, step (poke 0x200 [0xF0, 0x18, 0xF0, 0x18] (withV [(0, 1)])) = .next t ∧ t.outcome = .beeped ∧
    step t = .next u ∧ u.outcome = .beeped := ⟨_, _, rfl, rfl, rfl, rfl⟩

theorem witness_FaultIsPreciseAndRepeats : step (poke 0x200 [0x00, 0xEE] State.reset) = .fault (.outOfBounds .stackUnderflow) := rfl

theorem witness_PcFollowsItsClass : exec (.jump 0xFFF) State.reset = .next (State.reset.setPc 0xFFF) ∧
    exec (.skipIfEqualConst 0 0) State.reset = .next (State.reset.setPc 0x204) ∧
    exec (.blockingGetKey 0) State.reset = .next State.reset ∧ (State.reset.setPc 0xFFE).pc.toNat + 1 < 4096 ∧
    step (State.reset.setPc 0xFFF) = .fault (.outOfBounds .fetch) := ⟨rfl, rfl, rfl, by decide, rfl⟩

theorem witness_MachineCodeCallOnlyAdvances : (0x0E0#12).extractLsb' 0 8 ≠ 0x0E#8 ∧ (0x0E0#12).extractLsb' 0 8 ≠ 0xEE#8 := by decide

theorem witness_CallSubPushesTheNextPc : (State.reset.setSp 15).sp.val < 16 ∧ (State.reset.setSp 16).sp.val = 16 := by decide

theorem witness_ReturnFromSubPopsIntoPc : 0 < (State.reset.setSp 1).sp.val ∧ State.reset.sp.val = 0 := by decide

theorem witness_CallThenReturnComesBack : (State.reset.setSp 15).sp.val < 16 := by decide

theorem witness_KeySkips : ((withV [(3, 15)]).reg 3).toNat = (15 : Reg).val ∧ ((withV [(3, 16)]).reg 3).toNat > 15 := by decide

/-- The destination is not V[0xF], and another register is neither (AddWithCarryResult, SubtractionResults, ShiftResults). -/
theorem witness_destination : (14 : Reg) ≠ 15 ∧ (0 : Reg) ≠ 14 ∧ (0 : Reg) ≠ 15 := by decide

theorem witness_StoreBCDStoresTheDigits : (State.reset.setI 0xFFD).i.toNat + 3 ≤ 4096 ∧ (State.reset.setI 0xFFE).i.toNat + 3 > 4096 ∧
    (0xFFC < (State.reset.setI 0xFFD).i.toNat) := by decide

/-- For RegisterDump, RegisterLoad and DumpThenLoadRestores. -/
theorem witness_register_ranges : (State.reset.setI 0xFF0).i.toNat + (15 : Reg).val + 1 ≤ 4096 ∧
    (State.reset.setI 0xFF1).i.toNat + (15 : Reg).val + 1 > 4096 ∧ (State.reset.setI 0xFFF).i.toNat + (0 : Reg).val + 1 ≤ 4096 := by decide

/-- The word hi, lo at 0x200 and I = a, for the three witnesses of StoreIsSeenByTheNextFetch. -/
def storing (hi lo : Byte) (a : Word) : State := poke 0x200 [hi, lo] (State.reset.setI a)

/-- StoreBCD(0) over both bytes of the next word, at each of its three digits; over its first byte only; over its second byte only; over
none. -/
theorem witness_StoreIsSeenByTheNextFetch_bcd :
    decode ((storing 0xF0 0x33 0x202).byteAt 0x200 ++ (storing 0xF0 0x33 0x202).byteAt 0x201) = .ok (.storeBCD 0) ∧
    (∃ t, step (storing 0xF0 0x33 0x202) = .next t ∧ t.pc.toNat + 2 ≤ 4096 ∧ t.pc.toNat + 0 = 0x202 ∧ t.pc.toNat + 1 = 0x202 + 1) ∧
    (∃ t, step (storing 0xF0 0x33 0x200) = .next t ∧ t.pc.toNat + 0 = 0x200 + 2 ∧ 0x200 + 3 ≤ t.pc.toNat + 1) ∧
    (∃ t, step (storing 0xF0 0x33 0x203) = .next t ∧ t.pc.toNat + 0 < 0x203 ∧ t.pc.toNat + 1 = 0x203) ∧
    (∃ t, step (storing 0xF0 0x33 0x204) = .next t ∧ t.pc.toNat + 1 < 0x204) :=
  ⟨rfl, ⟨_, rfl, by decide, rfl, rfl⟩, ⟨_, rfl, rfl, by decide⟩, ⟨_, rfl, by decide, rfl⟩, ⟨_, rfl, by decide⟩⟩

/-- RegisterDump(1) over both bytes of the next word, over its first byte only, over its second byte only. -/
theorem witness_StoreIsSeenByTheNextFetch_dump :
    decode ((storing 0xF1 0x55 0x202).byteAt 0x200 ++ (storing 0xF1 0x55 0x202).byteAt 0x201) = .ok (.registerDump 1) ∧
    (∃ t, step (storing 0xF1 0x55 0x202) = .next t ∧ t.pc.toNat + 2 ≤ 4096 ∧ t.pc.toNat + 0 = 0x202 + (0 : Reg).val ∧
      t.pc.toNat + 1 = 0x202 + (1 : Reg).val) ∧
    (∃ t, step (storing 0xF1 0x55 0x201) = .next t ∧ t.pc.toNat + 0 = 0x201 + (1 : Reg).val ∧ 0x201 + 1 + 1 ≤ t.pc.toNat + 1) ∧
    (∃ t, step (storing 0xF1 0x55 0x203) = .next t ∧ t.pc.toNat + 0 < 0x203 ∧ t.pc.toNat + 1 = 0x203 + (0 : Reg).val) :=
  ⟨rfl, ⟨_, rfl, by decide, rfl, rfl⟩, ⟨_, rfl, rfl, by decide⟩, ⟨_, rfl, by decide, rfl⟩⟩

/-- One byte loaded at 0x200: over the first byte of the word at 0x200, over the second of the word at 0x1FF. -/
theorem witness_StoreIsSeenByTheNextFetch_load : ([0x12] : List Byte).length ≤ 3584 ∧ State.reset.pc.toNat + 2 ≤ 4096 ∧
    State.reset.pc.toNat + 0 = 0x200 + 0 ∧ 0x200 + ([0x12] : List Byte).length ≤ State.reset.pc.toNat + 1 ∧
    (State.reset.setPc 0x1FF).pc.toNat + 0 < 0x200 ∧ (State.reset.setPc 0x1FF).pc.toNat + 1 = 0x200 + 0 := by decide

/-- The predicate `hit` of a sprite of one row at (63, 31), the font's byte 0xF0: it holds at the last cell of the grid, which is clear. -/
theorem witness_DrawTogglesTheSprite : ∃ hit : Nat → Nat → Prop,
    (∀ px py, hit px py ↔ ((withV [(0, 63), (1, 31)]).reg 0).toNat ≤ px ∧ px < ((withV [(0, 63), (1, 31)]).reg 0).toNat + 8 ∧
      ((withV [(0, 63), (1, 31)]).reg 1).toNat ≤ py ∧ py < ((withV [(0, 63), (1, 31)]).reg 1).toNat + (1#4).toNat ∧
      ((withV [(0, 63), (1, 31)]).byteAt ((withV [(0, 63), (1, 31)]).i.toNat + (py - ((withV [(0, 63), (1, 31)]).reg 1).toNat))).getLsbD
        (7 - (px - ((withV [(0, 63), (1, 31)]).reg 0).toNat)) = true) ∧
    hit 63 31 ∧ ¬ hit 62 31 ∧ (withV [(0, 63), (1, 31)]).i.toNat + (1#4).toNat ≤ 4096 :=
  ⟨_, fun _ _ => Iff.rfl, by decide, by decide, by decide⟩

/-- The last sprite that lies in memory at I = 0xFFF, and the first that does not. -/
theorem witness_Draw_ranges : (State.reset.setI 0xFFF).i.toNat + (1#4).toNat ≤ 4096 ∧ (2#4).toNat > 0 ∧
    (State.reset.setI 0xFFF).i.toNat + (2#4).toNat > 4096 ∧ (0#4).toNat = 0 := by decide

theorem witness_DrawTwiceRestores : (0 : Reg) ≠ 15 ∧ (1 : Reg) ≠ 15 ∧ State.reset.i.toNat + (15#4).toNat ≤ 4096 := by decide

theorem witness_DrawOffTheGridDrawsNothing : State.reset.i.toNat + (15#4).toNat ≤ 4096 ∧ 64 ≤ ((withV [(0, 64)]).reg 0).toNat ∧
    32 ≤ ((withV [(1, 32)]).reg 1).toNat := by decide

theorem witness_BlockingGetKeyWaitsOrTakesTheLeast : (∀ k : Reg, State.reset.keyHeld k = false) ∧
    (hold 15 State.reset).keyHeld 15 = true ∧ (∀ j : Reg, j.val < (15 : Reg).val → (hold 15 State.reset).keyHeld j = false) := by decide

theorem witness_WaitingRepeatsForEver : State.reset.pc.toNat + 2 ≤ 4096 ∧
    decode ((poke 0x200 [0xF0, 0x0A] State.reset).byteAt 0x200 ++ (poke 0x200 [0xF0, 0x0A] State.reset).byteAt 0x201) =
      .ok (.blockingGetKey 0) ∧ ∀ k : Reg, (poke 0x200 [0xF0, 0x0A] State.reset).keyHeld k = false := by decide

/-- For the frames of memory, registers and special registers and for the flag writers: an instruction of each kind completes. -/
theorem witness_frames : (∃ t, exec (.storeBCD 0) (State.reset.setI 0x300) = .next t) ∧ 0x2FF < (State.reset.setI 0x300).i.toNat ∧
    (State.reset.setI 0x300).i.toNat + 3 ≤ 0x303 ∧ (∃ t, exec (.registerDump 15) (State.reset.setI 0x300) = .next t) ∧
    (∃ t, exec (.addWithCarry 0 1) State.reset = .next t) ∧ (∃ t, exec (.registerLoad 14) State.reset = .next t) ∧
    (14 : Reg).val < (15 : Reg).val ∧ (∃ t, exec (.callSub 0) State.reset = .next t) ∧ (∃ t, exec (.setSound 0) State.reset = .next t) :=
  ⟨⟨_, rfl⟩, by decide, by decide, ⟨_, rfl⟩, ⟨_, rfl⟩, ⟨_, rfl⟩, by decide, ⟨_, rfl⟩, ⟨_, rfl⟩⟩

/-- For OnlyRandomReadsTheRandomByte, OnlyKeyInstructionsReadTheKeypad and NoInstructionReadsTheSoundTimer. -/
theorem witness_reads : (∀ x nn, Instr.returnFromSub ≠ .random x nn) ∧
    (∀ x, Instr.returnFromSub ≠ .skipIfKey x ∧ Instr.returnFromSub ≠ .skipIfNotKey x ∧ Instr.returnFromSub ≠ .blockingGetKey x) ∧
    (∀ x, Instr.returnFromSub ≠ .setSound x) ∧ (∃ t, exec .returnFromSub (State.reset.setSp 1) = .next t) ∧
    exec .returnFromSub State.reset = .fault (.outOfBounds .stackUnderflow) :=
  ⟨by simp, by simp, by simp, ⟨_, rfl⟩, rfl⟩

theorem witness_LoadProgramCopiesTheBytes : (List.replicate 3584 (0xAA : Byte)).length ≤ 3584 ∧
    (List.replicate 3585 (0xAA : Byte)).length > 3584 := by
  simp only [List.length_replicate]
  omega

theorem witness_HostReadsAndWritesAsListed : step State.reset = .next (State.reset.setPc 0x202) := rfl

theorem witness_StepKeepsTheInvariant : State.reset.Inv ∧ step State.reset = .next (State.reset.setPc 0x202) :=
  ⟨⟨by simp [State.reset, Memory.wf], by decide, by decide, by decide⟩, rfl⟩

/-- For ReachableStatesKeepTheirRanges and FirstDataByteIsAlwaysInRange. -/
theorem witness_reachable : Reachable (afterHostOp .step (hostReset fontTable State.reset)) := .op _ (.launch _)

theorem witness_EqualBytesAreEqualMemories : Memory.wf [(0x200, 0x12), (0x201, 0x34)] ∧ Memory.wf [] ∧
    ∀ a, a < 4096 → Memory.readByte [] a = Memory.readByte [] a := ⟨by decide, by decide, fun _ _ => rfl⟩

/-- F4: a Jump to itself with both timers 0. -/
theorem witness_EndedRunIsAFixedPoint : (poke 0x200 [0x12, 0x00] State.reset).EndedWell :=
  ⟨0x1200, 0x200, rfl, rfl, rfl, rfl, rfl⟩

end Sys2Proof.Tests
end

section
/-! PROOFS. The shifts (43_alu.md R128, R130) over the rule for a result written first and a flag last (R86). -/

namespace Sys2Proof

/-- Group 0x8 (R68) of a word put together in format RR. -/
theorem decode_formRR_eight (x y : Reg) (n : Nibble) : decode (formRR 0x8 x y n) = decodeGroup8 (formRR 0x8 x y n) := by
  simp [decode]

theorem decode_formRR_shiftRight (x y : Reg) : decode (formRR 0x8 x y 0x6) = .ok (.shiftRight x y) := by
  rw [decode_formRR_eight]
  simp [decodeGroup8]

theorem decode_formRR_shiftLeft (x y : Reg) : decode (formRR 0x8 x y 0xE) = .ok (.shiftLeft x y) := by
  rw [decode_formRR_eight]
  simp [decodeGroup8]

end Sys2Proof

namespace Sys2Proof.Machine

/-! ### The flag as a number -/

theorem toNat_flagByte (c : Bool) : (flagByte c).toNat = c.toNat := by cases c <;> rfl

theorem toNat_flagByte_shiftedOutRight (b : Byte) : (flagByte (shiftedOutRight b)).toNat = b.toNat % 2 := by
  rw [toNat_flagByte, shiftedOutRight, BitVec.getLsbD, Nat.toNat_testBit, Nat.pow_zero, Nat.div_one]

theorem toNat_flagByte_shiftedOutLeft (b : Byte) : (flagByte (shiftedOutLeft b)).toNat = b.toNat / 128 := by
  have hb : b.toNat < 256 := b.isLt
  rw [toNat_flagByte, shiftedOutLeft, BitVec.getLsbD, Nat.toNat_testBit]
  omega

/-! ### Result first, flag last -/

/-- Everything a sequential instruction that writes `r` to V[X] and then the flag `c` leaves behind (R12, R86). -/
theorem done_setResultAndFlag (s : State) (x : Reg) (r : Byte) (c : Bool) :
    ∃ t, done (s.setResultAndFlag x r c) = .next t ∧ (x ≠ flagReg → t.reg x = r) ∧ t.reg flagReg = flagByte c ∧
      (∀ k, k ≠ x → k ≠ flagReg → t.reg k = s.reg k) ∧ t = { s with v := t.v, pc := s.pc + 2 } := by
  refine ⟨_, rfl, fun hx => ?_, ?_, fun k hk hf => ?_, rfl⟩
  · simp [hx]
  · simp
  · simp [hk, hf]

/-! ### The two shifts -/

/-- The source is V[Y]: SHIFT_SOURCE at this hardware's value (R6 b, log 11). -/
theorem exec_shiftRight (x y : Reg) (s : State) :
    exec (.shiftRight x y) s = done (s.setResultAndFlag x (s.reg y >>> 1) (shiftedOutRight (s.reg y))) := rfl

/-- The source is V[Y], as in `exec_shiftRight`. -/
theorem exec_shiftLeft (x y : Reg) (s : State) :
    exec (.shiftLeft x y) s = done (s.setResultAndFlag x (s.reg y <<< 1) (shiftedOutLeft (s.reg y))) := rfl

theorem exec_shiftRight_result (x y : Reg) (s : State) :
    ∃ t, exec (.shiftRight x y) s = .next t ∧ (x ≠ 15 → (t.reg x).toNat = (s.reg y).toNat / 2) ∧
      (t.reg 15).toNat = (s.reg y).toNat % 2 ∧
      (∀ k, k ≠ x → k ≠ 15 → t.reg k = s.reg k) ∧ t = { s with v := t.v, pc := s.pc + 2 } := by
  obtain ⟨t, ht, hx, hflag, hframe⟩ := done_setResultAndFlag s x (s.reg y >>> 1) (shiftedOutRight (s.reg y))
  refine ⟨t, (exec_shiftRight x y s).trans ht, fun h => ?_, ?_, hframe⟩
  · rw [hx h, BitVec.toNat_ushiftRight, Nat.shiftRight_one]
  · rw [hflag, toNat_flagByte_shiftedOutRight]

theorem exec_shiftLeft_result (x y : Reg) (s : State) :
    ∃ t, exec (.shiftLeft x y) s = .next t ∧ (x ≠ 15 → (t.reg x).toNat = (s.reg y).toNat * 2 % 256) ∧
      (t.reg 15).toNat = (s.reg y).toNat / 128 ∧
      (∀ k, k ≠ x → k ≠ 15 → t.reg k = s.reg k) ∧ t = { s with v := t.v, pc := s.pc + 2 } := by
  obtain ⟨t, ht, hx, hflag, hframe⟩ := done_setResultAndFlag s x (s.reg y <<< 1) (shiftedOutLeft (s.reg y))
  refine ⟨t, (exec_shiftLeft x y s).trans ht, fun h => ?_, ?_, hframe⟩
  · rw [hx h, BitVec.toNat_shiftLeft, Nat.shiftLeft_eq, Nat.pow_one]
  · rw [hflag, toNat_flagByte_shiftedOutLeft]

/-- Settles O29: each shift writes its result first and its flag last, and both are read off V[Y] as numbers. -/
theorem shiftResults : Obligations.ShiftResults := fun x y s =>
  ⟨decode_formRR_shiftRight x y, decode_formRR_shiftLeft x y, exec_shiftRight_result x y s, exec_shiftLeft_result x y s⟩

end Sys2Proof.Machine
end

section
/-! PROOFS. The state (10_state.md): what each instruction leaves behind, said once as a relation; from it the frames of R24, the elements
no instruction reads, the class of pc (R85), and the ranges of R32 in every step and every reachable state. -/

namespace Sys2Proof.Machine

/-! ### What an instruction that completes leaves behind, and when it faults -/

/-- The state each instruction leaves when it completes (R84), in the order of the opcode table, with the bound it has passed where it has
one. BlockingGetKey has two: `wait` and `takeKey` (R163). -/
inductive Effect (s : State) : Instr → State → Prop where
  | clearScreen : Effect s .clearScreen (s.setFb Framebuffer.clear).advance
  | returnFromSub (h : 0 < s.sp.val) :
      Effect s .returnFromSub ((s.setSp ⟨s.sp.val - 1, by omega⟩).setPc (s.slot ⟨s.sp.val - 1, by omega⟩))
  | machineCodeCall (addr : Addr) : Effect s (.machineCodeCall addr) s.advance
  | jump (addr : Addr) : Effect s (.jump addr) (s.setPc (addrWord addr))
  | callSub (addr : Addr) (h : s.sp.val < 16) :
      Effect s (.callSub addr) (((s.setSlot ⟨s.sp.val, h⟩ (s.pc + 2)).setSp ⟨s.sp.val + 1, by omega⟩).setPc (addrWord addr))
  | skipIfEqualConst (x : Reg) (nn : Byte) : Effect s (.skipIfEqualConst x nn) (s.skipIf (s.reg x == nn))
  | skipIfNotEqualConst (x : Reg) (nn : Byte) : Effect s (.skipIfNotEqualConst x nn) (s.skipIf (s.reg x != nn))
  | skipIfRegEqual (x y : Reg) : Effect s (.skipIfRegEqual x y) (s.skipIf (s.reg x == s.reg y))
  | setConst (x : Reg) (nn : Byte) : Effect s (.setConst x nn) (s.setReg x nn).advance
  | addConst (x : Reg) (nn : Byte) : Effect s (.addConst x nn) (s.setReg x (s.reg x + nn)).advance
  | set (x y : Reg) : Effect s (.set x y) (s.setReg x (s.reg y)).advance
  | or (x y : Reg) : Effect s (.or x y) (s.setReg x (s.reg x ||| s.reg y)).advance
  | and (x y : Reg) : Effect s (.and x y) (s.setReg x (s.reg x &&& s.reg y)).advance
  | xor (x y : Reg) : Effect s (.xor x y) (s.setReg x (s.reg x ^^^ s.reg y)).advance
  | addWithCarry (x y : Reg) : Effect s (.addWithCarry x y)
      (s.setResultAndFlag x (s.reg x + s.reg y) (carryOut (s.reg x) (s.reg y))).advance
  | subWithBorrow (x y : Reg) : Effect s (.subWithBorrow x y)
      (s.setResultAndFlag x (s.reg x - s.reg y) (noBorrow (s.reg x) (s.reg y))).advance
  | shiftRight (x y : Reg) : Effect s (.shiftRight x y)
      (s.setResultAndFlag x (s.reg y >>> 1) (shiftedOutRight (s.reg y))).advance
  | reverseSub (x y : Reg) : Effect s (.reverseSub x y)
      (s.setResultAndFlag x (s.reg y - s.reg x) (noBorrow (s.reg y) (s.reg x))).advance
  | shiftLeft (x y : Reg) : Effect s (.shiftLeft x y)
      (s.setResultAndFlag x (s.reg y <<< 1) (shiftedOutLeft (s.reg y))).advance
  | skipIfRegNotEqual (x y : Reg) : Effect s (.skipIfRegNotEqual x y) (s.skipIf (s.reg x != s.reg y))
  | setAddressRegister (addr : Addr) : Effect s (.setAddressRegister addr) (s.setI (addrWord addr)).advance
  | jumpWithOffset (addr : Addr) : Effect s (.jumpWithOffset addr) (s.setPc (offsetTarget s addr))
  | random (x : Reg) (nn : Byte) : Effect s (.random x nn) (s.countDraw.setReg x (Config.rnd s.draws &&& nn)).advance
  | draw (x y : Reg) (n : Nibble) (h : n = 0#4 ∨ s.base + n.toNat ≤ 4096) :
      Effect s (.draw x y n) ((s.setFb (drawScan x y n s).1).setFlag (drawScan x y n s).2).advance
  | skipIfKey (x : Reg) (h : (s.reg x).toNat < 16) : Effect s (.skipIfKey x) (s.skipIf (s.keyHeld ⟨(s.reg x).toNat, h⟩))
  | skipIfNotKey (x : Reg) (h : (s.reg x).toNat < 16) : Effect s (.skipIfNotKey x) (s.skipIf (!s.keyHeld ⟨(s.reg x).toNat, h⟩))
  | getDelay (x : Reg) : Effect s (.getDelay x) (s.setReg x s.dt).advance
  | wait (x : Reg) (h : lowestKey s = none) : Effect s (.blockingGetKey x) s
  | takeKey (x k : Reg) (h : lowestKey s = some k) : Effect s (.blockingGetKey x) (s.setReg x (keyByte k)).advance
  | setDelay (x : Reg) : Effect s (.setDelay x) (s.setDt (s.reg x)).advance
  | setSound (x : Reg) : Effect s (.setSound x) (s.setSt (s.reg x)).advance
  | addToAddressRegister (x : Reg) : Effect s (.addToAddressRegister x) (s.setI (addressPlus s x)).advance
  | setAddressRegisterToSpriteFor (x : Reg) : Effect s (.setAddressRegisterToSpriteFor x) (s.setI (spriteAddress s x)).advance
  | storeBCD (x : Reg) (h : s.base + 3 ≤ 4096) :
      Effect s (.storeBCD x) (s.setMem (s.mem.writeBytes s.base (bcdDigits (s.reg x)))).advance
  | registerDump (x : Reg) (h : s.base + (x.val + 1) ≤ 4096) :
      Effect s (.registerDump x) (s.setMem (s.mem.writeBytes s.base (dumpBytes s x))).advance
  | registerLoad (x : Reg) (h : s.base + (x.val + 1) ≤ 4096) :
      Effect s (.registerLoad x) (s.setRegs (regsUpTo x) (s.mem.readBytes s.base (x.val + 1))).advance

theorem effect_of_exec {i : Instr} {s t : State} (h : exec i s = .next t) : Effect s i t := by
  cases i with
  | returnFromSub => obtain ⟨hsp, rfl⟩ := execReturnFromSub_next_iff.mp h; exact .returnFromSub hsp
  | callSub addr => obtain ⟨hsp, rfl⟩ := execCallSub_next_iff.mp h; exact .callSub addr hsp
  | skipIfKey x => obtain ⟨hx, rfl⟩ := (skipOnKey_next_iff (cond := fun held => held)).mp h; exact .skipIfKey x hx
  | skipIfNotKey x => obtain ⟨hx, rfl⟩ := skipOnKey_next_iff.mp h; exact .skipIfNotKey x hx
  | draw x y n => obtain ⟨hr, rfl⟩ := execDraw_next_iff.mp h; exact .draw x y n hr
  | storeBCD x => obtain ⟨hr, rfl⟩ := execStoreBCD_next_iff.mp h; exact .storeBCD x hr
  | registerDump x => obtain ⟨hr, rfl⟩ := execRegisterDump_next_iff.mp h; exact .registerDump x hr
  | registerLoad x => obtain ⟨hr, rfl⟩ := execRegisterLoad_next_iff.mp h; exact .registerLoad x hr
  | blockingGetKey x =>
    cases hk : lowestKey s with
    | none => cases (execBlockingGetKey_of_none hk).symm.trans h; exact .wait x hk
    | some k => cases (execBlockingGetKey_of_some hk).symm.trans h; exact .takeKey x k hk
  | _ => cases h; constructor

theorem exec_of_effect {i : Instr} {s t : State} (e : Effect s i t) : exec i s = .next t := by
  cases e with
  | returnFromSub hsp => exact execReturnFromSub_next_iff.mpr ⟨hsp, rfl⟩
  | callSub addr hsp => exact execCallSub_next_iff.mpr ⟨hsp, rfl⟩
  | skipIfKey x hx => exact (skipOnKey_next_iff (cond := fun held => held)).mpr ⟨hx, rfl⟩
  | skipIfNotKey x hx => exact skipOnKey_next_iff.mpr ⟨hx, rfl⟩
  | draw x y n hr => exact execDraw_next_iff.mpr ⟨hr, rfl⟩
  | storeBCD x hr => exact execStoreBCD_next_iff.mpr ⟨hr, rfl⟩
  | registerDump x hr => exact execRegisterDump_next_iff.mpr ⟨hr, rfl⟩
  | registerLoad x hr => exact execRegisterLoad_next_iff.mpr ⟨hr, rfl⟩
  | wait x hk => exact execBlockingGetKey_of_none hk
  | takeKey x k hk => exact execBlockingGetKey_of_some hk
  | _ => rfl

/-- Where each instruction faults (R172). Only I, SP and V are asked. -/
inductive Faults (s : State) : Instr → Fault → Prop where
  | draw (x y : Reg) (n : Nibble) (h : n ≠ 0#4 ∧ 4096 < s.base + n.toNat) : Faults s (.draw x y n) (.outOfBounds .memRead)
  | registerLoad (x : Reg) (h : 4096 < s.base + (x.val + 1)) : Faults s (.registerLoad x) (.outOfBounds .memRead)
  | storeBCD (x : Reg) (h : 4096 < s.base + 3) : Faults s (.storeBCD x) (.outOfBounds .memWrite)
  | registerDump (x : Reg) (h : 4096 < s.base + (x.val + 1)) : Faults s (.registerDump x) (.outOfBounds .memWrite)
  | callSub (addr : Addr) (h : s.sp.val = 16) : Faults s (.callSub addr) (.outOfBounds .stackOverflow)
  | returnFromSub (h : s.sp.val = 0) : Faults s .returnFromSub (.outOfBounds .stackUnderflow)
  | skipIfKey (x : Reg) (h : 15 < (s.reg x).toNat) : Faults s (.skipIfKey x) (.outOfBounds .keyIndex)
  | skipIfNotKey (x : Reg) (h : 15 < (s.reg x).toNat) : Faults s (.skipIfNotKey x) (.outOfBounds .keyIndex)

theorem faults_of_exec {i : Instr} {s : State} {f : Fault} (h : exec i s = .fault f) : Faults s i f := by
  cases i with
  | draw x y n => obtain ⟨hr, rfl⟩ := execDraw_fault_iff.mp h; exact .draw x y n hr
  | registerLoad x => obtain ⟨hr, rfl⟩ := execRegisterLoad_fault_iff.mp h; exact .registerLoad x hr
  | storeBCD x => obtain ⟨hr, rfl⟩ := execStoreBCD_fault_iff.mp h; exact .storeBCD x hr
  | registerDump x => obtain ⟨hr, rfl⟩ := execRegisterDump_fault_iff.mp h; exact .registerDump x hr
  | callSub addr => obtain ⟨hsp, rfl⟩ := execCallSub_fault_iff.mp h; exact .callSub addr hsp
  | returnFromSub => obtain ⟨hsp, rfl⟩ := execReturnFromSub_fault_iff.mp h; exact .returnFromSub hsp
  | skipIfKey x => obtain ⟨hx, rfl⟩ := (skipOnKey_fault_iff (cond := fun held => held)).mp h; exact .skipIfKey x hx
  | skipIfNotKey x => obtain ⟨hx, rfl⟩ := skipOnKey_fault_iff.mp h; exact .skipIfNotKey x hx
  | blockingGetKey x =>
    cases hk : lowestKey s with
    | none => cases (execBlockingGetKey_of_none hk).symm.trans h
    | some k => cases (execBlockingGetKey_of_some hk).symm.trans h
  | _ => cases h

theorem exec_of_faults {i : Instr} {s : State} {f : Fault} (h : Faults s i f) : exec i s = .fault f := by
  cases h with
  | draw x y n hr => exact execDraw_fault_iff.mpr ⟨hr, rfl⟩
  | registerLoad x hr => exact execRegisterLoad_fault_iff.mpr ⟨hr, rfl⟩
  | storeBCD x hr => exact execStoreBCD_fault_iff.mpr ⟨hr, rfl⟩
  | registerDump x hr => exact execRegisterDump_fault_iff.mpr ⟨hr, rfl⟩
  | callSub addr hsp => exact execCallSub_fault_iff.mpr ⟨hsp, rfl⟩
  | returnFromSub hsp => exact execReturnFromSub_fault_iff.mpr ⟨hsp, rfl⟩
  | skipIfKey x hx => exact (skipOnKey_fault_iff (cond := fun held => held)).mpr ⟨hx, rfl⟩
  | skipIfNotKey x hx => exact skipOnKey_fault_iff.mpr ⟨hx, rfl⟩

/-! ### RegisterLoad touches the register file only -/

@[simp] theorem setRegs_mem (s : State) (ks : List Reg) (bs : List Byte) : (s.setRegs ks bs).mem = s.mem := by rw [setRegs_eq]
@[simp] theorem setRegs_i (s : State) (ks : List Reg) (bs : List Byte) : (s.setRegs ks bs).i = s.i := by rw [setRegs_eq]
@[simp] theorem setRegs_pc (s : State) (ks : List Reg) (bs : List Byte) : (s.setRegs ks bs).pc = s.pc := by rw [setRegs_eq]

/-! ### Frames (R24) -/

/-- Settles O44: only the two stores write memory, and each its own range at I. -/
theorem onlyStoresChangeMemory : Obligations.OnlyStoresChangeMemory := by
  intro i s t h a ha
  cases effect_of_exec h with
  | storeBCD x hr => exact Memory.readByte_writeBytes_of_outside s.mem ha
  | registerDump x hr =>
    refine Memory.readByte_writeBytes_of_outside s.mem (ha.imp_right fun hle => ?_)
    rwa [length_dumpBytes]
  | registerLoad x hr => simp [State.byteAt]
  | _ => rfl

/-- Settles O45: a register that is no destination is passed over by every write of the effect. -/
theorem onlyDestinationsChangeRegisters : Obligations.OnlyDestinationsChangeRegisters := by
  intro i s t h k hk
  cases effect_of_exec h with
  | setConst | addConst | set | or | and | xor | random | getDelay | takeKey | draw => simp [show k ≠ _ from hk]
  | addWithCarry | subWithBorrow | reverseSub | shiftRight | shiftLeft =>
    obtain ⟨hx, hflag⟩ := hk
    simp [hx, hflag]
  | registerLoad x hr =>
    have hnot : k ∉ regsUpTo x := fun hm => Nat.not_le.mpr hk ((mem_regsUpTo x k).mp hm)
    exact setRegs_reg_of_not_mem s _ hnot
  | _ => rfl

/-- Settles O47: the six end by writing a flag byte; for the others V[0xF] is a register like any other, and O45's frame holds of it. -/
theorem flagWritersAreExactlySix : Obligations.FlagWritersAreExactlySix := by
  intro i s t h
  have frame := onlyDestinationsChangeRegisters i s t h 15
  cases effect_of_exec h with
  | addWithCarry | subWithBorrow | reverseSub | shiftRight | shiftLeft | draw => simpa using flagByte_eq _
  | setConst | addConst | set | or | and | xor | random | getDelay | wait | takeKey => exact fun hx => frame hx.symm
  | registerLoad x hr => exact fun hx => frame (Fin.lt_last_iff_ne_last.mpr hx)
  | _ => exact frame trivial

/-- Settles O46: each element is a field of the effect, written by the instructions named only. -/
theorem onlyWritersChangeSpecialRegisters : Obligations.OnlyWritersChangeSpecialRegisters := by
  intro i s t h
  cases effect_of_exec h with
  | callSub addr hsp => simpa [Fin.ext_iff] using fun k hk _ => hk
  | registerLoad x hr => rw [setRegs_eq]; simp [State.slot]
  | _ => simp

/-! ### pc by class (R85) -/

/-- "Some key of number n is held" asks one flag. -/
theorem exists_key_held_iff {s : State} {n : Nat} (h : n < 16) :
    (∃ k : Reg, k.val = n ∧ s.keyHeld k = true) ↔ s.keyHeld ⟨n, h⟩ = true :=
  ⟨fun ⟨k, hk, hheld⟩ => by subst hk; exact hheld, fun hheld => ⟨⟨n, h⟩, rfl, hheld⟩⟩

theorem hostStep_of_fault {s : State} {f : Fault} (h : step s = .fault f) : hostStep s = (s, .faulted f) := by
  simp [hostStep, h]

theorem toNat_pc_add {s : State} (h : s.pc.toNat + 1 < 4096) : (s.pc + 2).toNat = s.pc.toNat + 2 ∧ (s.pc + 4).toNat = s.pc.toNat + 4 := by
  constructor <;> bv_omega

/-- Settles O15: the effect writes pc by its class, the additions stay far below 2 ^ 16, and a fault answers the state before it. -/
theorem pcFollowsItsClass : Obligations.PcFollowsItsClass := by
  refine ⟨fun i s t h => ?_, fun _ => toNat_pc_add, fun _ _ h => by rw [hostStep_of_fault h]⟩
  cases effect_of_exec h with
  | skipIfEqualConst | skipIfNotEqualConst | skipIfRegEqual | skipIfRegNotEqual => simp
  | skipIfKey x hx => simp [exists_key_held_iff hx]
  | skipIfNotKey x hx => cases hheld : s.keyHeld ⟨(s.reg x).toNat, hx⟩ <;> simp [exists_key_held_iff hx, hheld]
  | returnFromSub hsp => simp [hsp]
  | wait x hk => simp [lowestKey_none_iff.mp hk]
  | takeKey x k hk =>
    have hheld : ∃ k, s.keyHeld k = true := ⟨k, (lowestKey_some_iff.mp hk).1⟩
    simp [hheld]
  | registerLoad => simp
  | _ => rfl

/-! ### The invariant of R32 -/

theorem toNat_addrWord_le (addr : Addr) : (addrWord addr).toNat ≤ 0x0FFF := by
  have := addr.isLt
  rw [addrWord, BitVec.toNat_setWidth]
  omega

theorem toNat_offsetTarget_le (s : State) (addr : Addr) : (offsetTarget s addr).toNat ≤ 0x10FE := by
  have ha := addr.isLt
  have hb := (s.reg 0).isLt
  simp only [offsetTarget, addrWord, byteWord, BitVec.toNat_add, BitVec.toNat_setWidth]
  omega

theorem toNat_addressPlus_le (s : State) (x : Reg) : (addressPlus s x).toNat ≤ 0x0FFF := by
  simp only [addressPlus, BitVec.toNat_ofNat]
  omega

theorem toNat_spriteAddress_le (s : State) (x : Reg) : (spriteAddress s x).toNat ≤ 0x0FFF := by
  have hb := (s.reg x).isLt
  calc (spriteAddress s x).toNat = (s.reg x).toNat * 5 % 2 ^ 16 := BitVec.toNat_ofNat ..
    _ ≤ (s.reg x).toNat * 5 := Nat.mod_le _ _
    _ ≤ 0x0FFF := by omega

theorem State.Inv.tick {s : State} (h : s.Inv) : (Machine.tick s).Inv := ⟨h.memory, h.address, h.counter, h.returns⟩

/-! One lemma per clause: what the instruction may write there meets it again. -/

section
variable {i : Instr} {s t : State}

theorem exec_keeps_memory (hs : s.Inv) (h : exec i s = .next t) : t.mem.wf := by
  cases effect_of_exec h with
  | storeBCD x hr => exact Memory.writeBytes_wf hs.memory hr
  | registerDump x hr => exact Memory.writeBytes_wf hs.memory (by rwa [length_dumpBytes])
  | registerLoad => simpa using hs.memory
  | _ => exact hs.memory

theorem exec_keeps_address (hs : s.Inv) (h : exec i s = .next t) : t.i.toNat ≤ 0x0FFF := by
  cases effect_of_exec h with
  | setAddressRegister addr => exact toNat_addrWord_le addr
  | addToAddressRegister x => exact toNat_addressPlus_le s x
  | setAddressRegisterToSpriteFor x => exact toNat_spriteAddress_le s x
  | registerLoad => simpa using hs.address
  | _ => exact hs.address

theorem exec_keeps_counter (hs : s.Inv) (hp : s.pc.toNat + 2 ≤ 4096) (h : exec i s = .next t) : t.pc.toNat ≤ 0x10FE := by
  obtain ⟨h2, h4⟩ := toNat_pc_add (s := s) (by omega)
  have hnext : (s.pc + 2).toNat ≤ 0x10FE := by omega
  have hskip : (s.pc + 4).toNat ≤ 0x10FE := by omega
  cases effect_of_exec h with
  | jump addr | callSub addr => exact (toNat_addrWord_le addr).trans (by decide)
  | jumpWithOffset addr => exact toNat_offsetTarget_le s addr
  | returnFromSub => exact (hs.returns _).trans (by decide)
  | skipIfEqualConst | skipIfNotEqualConst | skipIfRegEqual | skipIfRegNotEqual | skipIfKey | skipIfNotKey =>
    rw [State.skipIf_pc]
    split <;> assumption
  | wait => exact hs.counter
  | registerLoad => simpa using hnext
  | _ => exact hnext

theorem exec_keeps_returns (hs : s.Inv) (hp : s.pc.toNat + 2 ≤ 4096) (h : exec i s = .next t) (k : Fin 16) :
    (t.slot k).toNat ≤ 0x1000 := by
  cases effect_of_exec h with
  | callSub addr hsp =>
    have hret : (s.pc + 2).toNat ≤ 0x1000 := by rw [(toNat_pc_add (by omega)).1]; exact hp
    simp only [State.setPc_slot, State.setSp_slot, State.setSlot_slot]
    split
    · exact hret
    · exact hs.returns k
  | registerLoad => rw [setRegs_eq]; exact hs.returns k
  | _ => exact hs.returns k

theorem exec_keeps_inv (hs : s.Inv) (hp : s.pc.toNat + 2 ≤ 4096) (h : exec i s = .next t) : t.Inv :=
  ⟨exec_keeps_memory hs h, exec_keeps_address hs h, exec_keeps_counter hs hp h, exec_keeps_returns hs hp h⟩

end

/-- Settles O56: the instruction keeps each clause and the tick touches none of the four elements. -/
theorem stepKeepsTheInvariant : Obligations.StepKeepsTheInvariant := by
  intro s t hs h
  obtain ⟨hp, i, u, -, hu, rfl⟩ := step_next h
  exact (exec_keeps_inv hs hp hu).tick

/-- Settles O55: nothing is listed in memory, and the registers and the sixteen slots are evaluated. -/
theorem invariantHoldsAtReset : Obligations.InvariantHoldsAtReset :=
  ⟨Memory.nil_wf, by decide, by decide, by decide⟩

/-! ### Reachable states (R32, R191) -/

theorem hostReset_inv (font : Vector Byte Config.fontSize) (s : State) : (hostReset font s).Inv := by
  obtain ⟨-, haddress, hcounter, hreturns⟩ := invariantHoldsAtReset
  exact ⟨Memory.writeBytes_wf Memory.nil_wf (by simp [Config.fontSize, Config.memSize]), haddress, hcounter, hreturns⟩

theorem loadProgram_ok {bytes : List Byte} {s t : State} (h : loadProgram bytes s = .ok t) :
    bytes.length ≤ 3584 ∧ t = s.setMem (s.mem.writeBytes 0x200 bytes) := by
  unfold loadProgram at h
  split at h
  · cases h
  · rename_i hlen
    exact ⟨Nat.le_of_not_lt hlen, (Except.ok.inj h).symm⟩

theorem loadProgram_keeps_inv {bytes : List Byte} {s t : State} (hs : s.Inv) (h : loadProgram bytes s = .ok t) : t.Inv := by
  obtain ⟨hlen, rfl⟩ := loadProgram_ok h
  exact ⟨Memory.writeBytes_wf hs.memory (show 0x200 + bytes.length ≤ 4096 by omega), hs.address, hs.counter, hs.returns⟩

theorem hostStep_keeps_inv {s : State} (hs : s.Inv) : (hostStep s).1.Inv := by
  unfold hostStep
  cases h : step s with
  | next t => exact stepKeepsTheInvariant s t hs h
  | fault f => exact hs
  | refused r => exact hs

theorem afterHostOp_keeps_inv (op : HostOp) {s : State} (hs : s.Inv) : (afterHostOp op s).Inv := by
  cases op with
  | reset font => exact hostReset_inv font s
  | loadProgram bytes =>
    simp only [afterHostOp]
    cases h : loadProgram bytes s with
    | ok t => exact loadProgram_keeps_inv hs h
    | error e => exact hs
  | setKeys keys => exact ⟨hs.memory, hs.address, hs.counter, hs.returns⟩
  | step => exact hostStep_keeps_inv hs
  | readFramebuffer => exact hs

theorem Reachable.inv {s : State} (h : Reachable s) : s.Inv := by
  induction h with
  | launch font => exact hostReset_inv font State.reset
  | op o _ ih => exact afterHostOp_keeps_inv o ih

theorem decode_formRC_setConst (x : Reg) (nn : Byte) : decode (formRC 0x6 x nn) = .ok (.setConst x nn) := by simp [decode]

/-- Where SetConst(x, nn) lies at pc, the step leaves nn in V[x]. -/
theorem step_setConst_reg {s : State} (hp : s.pc.toNat + 2 ≤ 4096) {x : Reg} {nn : Byte}
    (hd : decode (fetchedWord s) = .ok (.setConst x nn)) : ((hostStep s).1).reg x = nn := by
  have hs : step s = .next (tick (s.setReg x nn).advance) := step_eq_of_decode hp hd
  simp [hostStep, hs]

/-- Reset, with SetConst(0xF, b) loaded at 0x200. -/
def settingFlagReg (b : Byte) : State := afterHostOp (.loadProgram [0x6F#8, b]) (hostReset fontTable State.reset)

theorem settingFlagReg_decodes (b : Byte) : decode (fetchedWord (settingFlagReg b)) = .ok (.setConst 15 b) := by
  have hload (k : Nat) (h : k < [0x6F#8, b].length) : (settingFlagReg b).byteAt (0x200 + k) = [0x6F#8, b][k] :=
    Memory.readByte_writeBytes_of_inside _ 0x200 h
  have hword : fetchedWord (settingFlagReg b) = formRC 0x6 15 b := congrArg₂ (· ++ ·) (hload 0 (by simp)) (hload 1 (by simp))
  rw [hword, decode_formRC_setConst]

theorem reachable_flagReg (b : Byte) : ∃ s, Reachable s ∧ s.reg 15 = b := by
  have hp : (settingFlagReg b).pc.toNat + 2 ≤ 4096 := show 0x200 + 2 ≤ 4096 by decide
  exact ⟨_, .op .step (.op _ (.launch _)), step_setConst_reg hp (settingFlagReg_decodes b)⟩

/-- Settles O57: the invariant holds of every reachable state; SetConst(0xF, b), loaded and run, puts any b in V[0xF]. -/
theorem reachableStatesKeepTheirRanges : Obligations.ReachableStatesKeepTheirRanges := by
  refine ⟨fun s h => ?_, reachable_flagReg⟩
  obtain ⟨-, haddress, hcounter, -⟩ := h.inv
  exact ⟨Nat.le_of_lt_succ s.sp.isLt, haddress, hcounter, fun x => Nat.le_of_lt_succ (s.reg x).isLt,
    Nat.le_of_lt_succ s.dt.isLt, Nat.le_of_lt_succ s.st.isLt⟩

/-- Settles O58: a range of one byte at an I in range ends inside memory. -/
theorem firstDataByteIsAlwaysInRange : Obligations.FirstDataByteIsAlwaysInRange := by
  intro s h
  have hbase : s.base + 1 ≤ 4096 := Nat.succ_le_succ h.inv.address
  exact ⟨⟨_, exec_of_effect (.registerDump 0 hbase)⟩, ⟨_, exec_of_effect (.registerLoad 0 hbase)⟩,
    fun x y => ⟨_, exec_of_effect (.draw x y 1 (.inr hbase))⟩⟩

/-! ### What no instruction reads (R21, R24) -/

theorem Effect.replaceKeys {i : Instr} {s t : State} (e : Effect s i t) (keys : Vector Bool 16)
    (hi : ∀ x, i ≠ .skipIfKey x ∧ i ≠ .skipIfNotKey x ∧ i ≠ .blockingGetKey x) :
    Effect { s with keys := keys } i { t with keys := keys } := by
  cases e with
  | skipIfKey x => exact absurd rfl (hi x).1
  | skipIfNotKey x => exact absurd rfl (hi x).2.1
  | wait x | takeKey x => exact absurd rfl (hi x).2.2
  | registerLoad x hr =>
    have hload := Effect.registerLoad (s := { s with keys := keys }) x hr
    rw [setRegs_keys] at hload
    exact hload
  | _ => constructor <;> assumption

theorem Effect.replaceSt {i : Instr} {s t : State} (e : Effect s i t) (b : Byte) (hi : ∀ x, i ≠ .setSound x) :
    Effect { s with st := b } i { t with st := b } := by
  cases e with
  | setSound x => exact absurd rfl (hi x)
  | registerLoad x hr =>
    have hload := Effect.registerLoad (s := { s with st := b }) x hr
    rw [setRegs_st] at hload
    exact hload
  | _ => constructor <;> assumption

/-- The faults depend on I, SP and V only. -/
theorem Faults.of_same_i_sp_v {i : Instr} {s s' : State} {f : Fault} (h : Faults s i f) (hi : s'.i = s.i) (hsp : s'.sp = s.sp)
    (hv : s'.v = s.v) : Faults s' i f := by
  cases s; cases s'
  subst hi hsp hv
  cases h <;> constructor <;> assumption

/-- Settles O49: an effect stays an effect with the flags replaced, and a fault never asks for them. -/
theorem onlyKeyInstructionsReadTheKeypad : Obligations.OnlyKeyInstructionsReadTheKeypad := fun _ _ keys hi =>
  ⟨fun _ h => exec_of_effect ((effect_of_exec h).replaceKeys keys hi),
    fun _ h => exec_of_faults ((faults_of_exec h).of_same_i_sp_v rfl rfl rfl)⟩

/-- Settles O50: as O49, with ST in the place of the flags; SetSound overwrites ST. -/
theorem noInstructionReadsTheSoundTimer : Obligations.NoInstructionReadsTheSoundTimer := fun _ _ b =>
  ⟨fun _ => rfl, fun hi _ h => exec_of_effect ((effect_of_exec h).replaceSt b hi),
    fun _ h => exec_of_faults ((faults_of_exec h).of_same_i_sp_v rfl rfl rfl)⟩

/-! ### The tick and the host -/

/-- Settles O10: a completed step is the effect and then `tick`, a fault answers the state before it. -/
theorem tickFollowsTheEffect : Obligations.TickFollowsTheEffect := by
  refine ⟨fun s t h => ?_, fun s f h => by simp [hostStep_of_fault h]⟩
  obtain ⟨-, i, u, hd, hu, rfl⟩ := step_next h
  have hbeep : ((tick u).outcome = .beeped ↔ u.st = 1) ∧ ((tick u).outcome = .cont ↔ u.st ≠ 1) := by
    by_cases hst : u.st = 1 <;> simp [hst]
  exact ⟨i, u, hd, hu, countDown_toNat u.dt, countDown_toNat u.st, hbeep.1, hbeep.2, rfl⟩

/-- Settles O51: memory lists nothing, so every address reads as the font table does, and 0 past its end. -/
theorem resetIsAsTabulated : Obligations.ResetIsAsTabulated := by
  refine ⟨fun a _ => ?_, by decide, rfl, rfl, by decide, rfl, rfl, rfl, Framebuffer.cell_clear, by decide⟩
  change unlisted a = _
  unfold unlisted
  split
  · rename_i h
    simp [List.getD_eq_getElem?_getD, h]
  · rename_i h
    exact List.getD_eq_default _ _ (by simpa using h)

/-- Settles O54: x and y are the remainder and the quotient of the index by 64. -/
theorem hostReadsAndWritesAsListed : Obligations.HostReadsAndWritesAsListed := by
  intro keys s
  refine ⟨fun _ => rfl, rfl, by simp [readFramebuffer], fun px py hx hy => ?_, rfl, fun t h => ?_⟩
  · have hlt : px + py * 64 < 2048 := by omega
    have hmod : (px + py * 64) % 64 = px := by omega
    have hdiv : (px + py * 64) / 64 = py := by omega
    simp [readFramebuffer, hlt, hmod, hdiv]
  · simp [afterHostOp, hostStep, h]

end Sys2Proof.Machine
end

section
/-! PROOFS. The encoder's words decode back (30_encoding.md R60 to R69), and memory as bytes (20_memory.md R40, R42, R44): equal bytes are
equal data, what the fetch reads and when it faults (R81), and a store seen by the next fetch (R53). -/

namespace Sys2Proof

/-! ### Decode after encode -/

theorem decode_formRC_groupE (x : Reg) (nn : Byte) : decode (formRC 0xE x nn) = decodeGroupE (formRC 0xE x nn) := by
  simp [decode]

theorem decode_formRC_groupF (x : Reg) (nn : Byte) : decode (formRC 0xF x nn) = decodeGroupF (formRC 0xF x nn) := by
  simp [decode]

/-- The primary opcode selects the row or its group (R66), and the group's own field the row in it (R67 to R69). -/
theorem decode_encode {i : Instr} (h : i.wf = true) : decode (encode i) = .ok i := by
  cases i with
  | clearScreen | returnFromSub => simp [encode, decode, decodeGroup0]
  | machineCodeCall addr =>
    obtain ⟨hclear, hreturn⟩ : addr.extractLsb' 0 8 ≠ 0x0E#8 ∧ addr.extractLsb' 0 8 ≠ 0xEE#8 := by simpa [Instr.wf] using h
    simp [encode, decode, decodeGroup0, hclear, hreturn]
  | set x y | or x y | and x y | xor x y | addWithCarry x y | subWithBorrow x y | shiftRight x y | reverseSub x y | shiftLeft x y =>
    rw [encode, decode_formRR_eight]
    simp [decodeGroup8]
  | skipIfKey x | skipIfNotKey x =>
    rw [encode, decode_formRC_groupE]
    simp [decodeGroupE]
  | getDelay x | blockingGetKey x | setDelay x | setSound x | addToAddressRegister x | setAddressRegisterToSpriteFor x
  | storeBCD x | registerDump x | registerLoad x =>
    rw [encode, decode_formRC_groupF]
    simp [decodeGroupF]
  | _ => simp [encode, decode]

theorem decodeBytes_bytesOfWord {w : Word} {i : Instr} (h : decode w = .ok i) : decodeBytes (bytesOfWord w) = .ok (i, []) := by
  simp [bytesOfWord, decodeBytes, wordOfBytes_bytes, h]

/-- Settles O1: the word decodes row by row, and its two bytes put together are the word again. -/
theorem decodeOfEncodeReturnsInstruction : Obligations.DecodeOfEncodeReturnsInstruction := fun _ h =>
  ⟨decode_encode h, decodeBytes_bytesOfWord (decode_encode h)⟩

end Sys2Proof

namespace Sys2Proof.Machine

/-! ### Equal bytes are equal memories (R40, log 4) -/

/-- Memories that agree below 4096 list the same cells: the listed ones are those that differ from the reset contents. -/
theorem Memory.mem_of_readByte_eq {m m' : Memory} (hm : m.wf) (hm' : m'.wf)
    (h : ∀ a, a < Config.memSize → m.readByte a = m'.readByte a) {c : Host.Cell} (hc : c ∈ m) : c ∈ m' := by
  obtain ⟨hread, hne⟩ := (Memory.mem_iff_of_wf hm c.1 c.2).mp hc
  exact (Memory.mem_iff_of_wf hm' c.1 c.2).mpr ⟨(h c.1 (hm.2 c hc).1).symm.trans hread, hne⟩

/-- Settles O59: the two lists have the same cells in the same strictly rising order. -/
theorem equalBytesAreEqualMemories : Obligations.EqualBytesAreEqualMemories := by
  intro m m' hm hm' h
  have hirrefl : Std.Irrefl (fun c d : Host.Cell => c.1 < d.1) := ⟨fun c => Nat.lt_irrefl c.1⟩
  have hantisymm : Std.Antisymm (fun c d : Host.Cell => c.1 < d.1) := ⟨fun _ _ hcd hdc => absurd hcd hdc.asymm⟩
  exact hm.1.eq_of_mem_iff hm'.1 fun c =>
    ⟨Memory.mem_of_readByte_eq hm hm' h, Memory.mem_of_readByte_eq hm' hm fun a ha => (h a ha).symm⟩

/-! ### The fetch (R81, R42) and its two faults -/

theorem toNat_fetchedWord (s : State) :
    (fetchedWord s).toNat = (s.byteAt s.pc.toNat).toNat * 256 + (s.byteAt (s.pc.toNat + 1)).toNat := by
  rw [fetchedWord, BitVec.toNat_append, ← Nat.shiftLeft_add_eq_or_of_lt (BitVec.isLt _), Nat.shiftLeft_eq]

/-- No instruction faults with the kind of the fetch or with an unknown opcode (R172). -/
theorem Faults.exists_kind {i : Instr} {s : State} {f : Fault} (h : Faults s i f) : ∃ k, k ≠ .fetch ∧ f = .outOfBounds k := by
  cases h <;> exact ⟨_, by decide, rfl⟩

/-- A fault of a step (R171, R172): of the fetch past the end, of an Unknown word, or of the instruction decoded. -/
theorem step_fault {s : State} {f : Fault} (h : step s = .fault f) :
    (4096 < s.pc.toNat + 2 ∧ f = .outOfBounds .fetch) ∨
    ((∃ r, decode (fetchedWord s) = .error r) ∧ f = .unknownOpcode (fetchedWord s) s.pc) ∨
    (∃ k, k ≠ .fetch ∧ f = .outOfBounds k) := by
  rcases step_cases s with ⟨hp, hs⟩ | ⟨-, hr, hs⟩ | ⟨-, i, -, hs⟩ <;> rw [hs] at h
  · cases h
    exact .inl ⟨hp, rfl⟩
  · cases h
    exact .inr (.inl ⟨hr, rfl⟩)
  · exact .inr (.inr (faults_of_exec (tickAfter_fault_iff.mp h)).exists_kind)

/-- Settles O8: of the three faults of a step only the fetch's has this kind. -/
theorem fetchFaultsExactlyPastTheEnd : Obligations.FetchFaultsExactlyPastTheEnd := by
  intro s
  refine ⟨⟨fun h => ?_, fun hp => step_eq_of_range (by omega)⟩, fun hp => hostStep_of_fault (step_eq_of_range (by omega)),
    fun hp => ⟨fetchedWord s, fetch_ok (by omega), toNat_fetchedWord s⟩⟩
  rcases step_fault h with ⟨hp, -⟩ | ⟨-, hf⟩ | ⟨k, hk, hf⟩
  · omega
  · cases hf
  · cases hf
    exact absurd rfl hk

/-- Settles O9: of the three faults of a step only the Unknown word's names an opcode. -/
theorem unknownWordFaultsInertly : Obligations.UnknownWordFaultsInertly := by
  rintro s hp w rfl
  refine ⟨fun ⟨r, hr⟩ => ?_, fun w' p h => ?_⟩
  · have hstep := step_eq_of_unknown hp hr
    exact ⟨hstep, hostStep_of_fault hstep⟩
  · rcases step_fault h with ⟨-, hf⟩ | ⟨hr, hf⟩ | ⟨k, -, hf⟩
    · cases hf
    · cases hf
      exact ⟨rfl, rfl, hr⟩
    · cases hf

/-! ### A store seen by the next fetch (R53) -/

/-- Where memory is `m` with `bs` stored at `a`, each byte of the word at pc is the one stored at its address, or else that of `m`. -/
theorem fetch_of_writeBytes {t : State} {m : Memory} {a : Nat} {bs : List Byte} (hmem : t.mem = m.writeBytes a bs)
    (hp : t.pc.toNat + 2 ≤ 4096) :
    ∃ b : Fin 2 → Byte, fetch t = .ok (b 0 ++ b 1) ∧ ∀ j : Fin 2,
      (∀ k, (h : k < bs.length) → t.pc.toNat + j.val = a + k → b j = bs[k]) ∧
      (t.pc.toNat + j.val < a ∨ a + bs.length ≤ t.pc.toNat + j.val → b j = m.readByte (t.pc.toNat + j.val)) := by
  refine ⟨fun j => t.byteAt (t.pc.toNat + j.val), fetch_ok hp, fun j => ⟨fun k hk hj => ?_, fun hout => ?_⟩⟩
  · change t.mem.readByte (t.pc.toNat + j.val) = bs[k]
    rw [hmem, hj, Memory.readByte_writeBytes_of_inside m a hk]
  · change t.mem.readByte (t.pc.toNat + j.val) = m.readByte (t.pc.toNat + j.val)
    rw [hmem, Memory.readByte_writeBytes_of_outside m hout]

/-- A completed step in terms of the word decoded: the effect of its instruction, then the tick. -/
theorem step_effect {s t : State} {i : Instr} (hd : decode (fetchedWord s) = .ok i) (h : step s = .next t) :
    ∃ u, Effect s i u ∧ t = tick u := by
  obtain ⟨-, i', u, hd', hu, rfl⟩ := step_next h
  cases hd.symm.trans hd'
  exact ⟨u, effect_of_exec hu, rfl⟩

theorem step_storeBCD_mem {x : Reg} {s t : State} (hd : decode (fetchedWord s) = .ok (.storeBCD x)) (h : step s = .next t) :
    t.mem = s.mem.writeBytes s.base (bcdDigits (s.reg x)) := by
  obtain ⟨_, ⟨⟩, rfl⟩ := step_effect hd h
  rfl

theorem step_registerDump_mem {x : Reg} {s t : State} (hd : decode (fetchedWord s) = .ok (.registerDump x)) (h : step s = .next t) :
    t.mem = s.mem.writeBytes s.base (dumpBytes s x) := by
  obtain ⟨_, ⟨⟩, rfl⟩ := step_effect hd h
  rfl

theorem afterHostOp_loadProgram {bytes : List Byte} (s : State) (h : bytes.length ≤ 3584) :
    afterHostOp (.loadProgram bytes) s = s.setMem (s.mem.writeBytes 0x200 bytes) := by
  have hfits : ¬ bytes.length > Config.maxProgram := Nat.not_lt.mpr h
  rw [afterHostOp, loadProgram, if_neg hfits]

theorem toNat_bcdDigits (b : Byte) {k : Nat} (h : k < 3) :
    ((bcdDigits b)[k]'h).toNat = [b.toNat / 100, b.toNat / 10 % 10, b.toNat % 10][k] := by
  have hb : b.toNat < 256 := b.isLt
  match k with
  | 0 => exact Nat.mod_eq_of_lt (by omega)
  | 1 => exact Nat.mod_eq_of_lt (by omega)
  | 2 => exact Nat.mod_eq_of_lt (by omega)

/-- Settles O36: each of the three stores leaves memory with its bytes written, and `fetch_of_writeBytes` reads the next word off it. -/
theorem storeIsSeenByTheNextFetch : Obligations.StoreIsSeenByTheNextFetch := by
  refine ⟨fun x s t hd h hp => ?_, fun x s t hd h hp => ?_, fun bytes s hlen hp => ?_⟩
  · obtain ⟨b, hb, hbytes⟩ := fetch_of_writeBytes (step_storeBCD_mem hd h) hp
    refine ⟨b, hb, fun j => ?_⟩
    obtain ⟨hin, hout⟩ := hbytes j
    have hdigit (k : Nat) (hk : k < 3) (hj : t.pc.toNat + j.val = s.i.toNat + k) :
        (b j).toNat = [(s.reg x).toNat / 100, (s.reg x).toNat / 10 % 10, (s.reg x).toNat % 10][k] := by
      rw [hin k hk hj, toNat_bcdDigits _ hk]
    exact ⟨hdigit 0 (by decide), hdigit 1 (by decide), hdigit 2 (by decide), hout⟩
  · obtain ⟨b, hb, hbytes⟩ := fetch_of_writeBytes (step_registerDump_mem hd h) hp
    refine ⟨b, hb, fun j => ?_⟩
    obtain ⟨hin, hout⟩ := hbytes j
    rw [length_dumpBytes] at hout
    refine ⟨fun k hk hj => ?_, hout⟩
    rw [hin k (by rw [length_dumpBytes]; omega) hj, getElem_dumpBytes]
  · rw [afterHostOp_loadProgram s hlen]
    exact fetch_of_writeBytes rfl hp

/-! ### The placed word (log 7) -/

theorem length_bytesOfWord (w : Word) : (bytesOfWord w).length = 2 := rfl

theorem tableWord_toNat (w : Word) : tableWord 16 w.toNat = w := by
  rw [tableWord, Nat.mod_eq_of_lt w.isLt, BitVec.ofNat_toNat, BitVec.setWidth_eq]

theorem withFetchWord_eq {s : State} (w : Word) (h : s.pc.toNat + 2 ≤ 4096) :
    s.withFetchWord 16 w.toNat = s.setMem (s.mem.writeBytes s.pc.toNat (bytesOfWord w)) := by
  have hw : memWrite .fetch s s.pc.toNat (bytesOfWord w) = .ok _ := memWrite_ok_iff.mpr ⟨h, rfl⟩
  rw [State.withFetchWord, tableWord_toNat, hw]

/-- Settles O7: the two bytes of the word are stored at pc and pc + 1, and put together they are the word. -/
theorem placedWordIsFetched : Obligations.PlacedWordIsFetched := by
  intro s w hp
  rw [withFetchWord_eq w hp]
  refine ⟨?_, fun a h0 h1 => ?_, rfl⟩
  · obtain ⟨b, hb, hbytes⟩ := fetch_of_writeBytes (t := s.setMem (s.mem.writeBytes s.pc.toNat (bytesOfWord w))) rfl hp
    have hhi : b 0 = hiByte w := (hbytes 0).1 0 Nat.zero_lt_two rfl
    have hlo : b 1 = loByte w := (hbytes 1).1 1 Nat.one_lt_two rfl
    rw [hb, hhi, hlo]
    exact congrArg Except.ok (wordOfBytes_bytes w)
  · exact Memory.readByte_writeBytes_of_outside s.mem (by rw [length_bytesOfWord]; omega)

end Sys2Proof.Machine
end

section
/-! PROOFS. The decoder against the table (30_encoding.md R66 to R70): a word of a row is the word the encoder puts together from the row's
opcode and the word's own fields, so `decode_encode` reads it; and the Unknown words, group by group. -/

namespace Sys2Proof

/-! ### A word as its row's format -/

theorem formA_of_fieldN0 {w : Word} {op : Nibble} (h : fieldN0 w = op) : formA op (fieldNNN w) = w :=
  h ▸ formA_fields w

theorem formRC_of_fieldN0 {w : Word} {op : Nibble} (h : fieldN0 w = op) : formRC op (fieldX w) (fieldNN w) = w :=
  h ▸ formRC_fields w

theorem formRR_of_fieldN0 {w : Word} {op : Nibble} (h : fieldN0 w = op) : formRR op (fieldX w) (fieldY w) (fieldN w) = w :=
  h ▸ formRR_fields w

theorem formRC_of_fields {w : Word} {op : Nibble} {nn : Byte} (h : fieldN0 w = op) (hnn : fieldNN w = nn) :
    formRC op (fieldX w) nn = w :=
  hnn ▸ formRC_of_fieldN0 h

theorem formRR_of_fields {w : Word} {op n : Nibble} (h : fieldN0 w = op) (hn : fieldN w = n) :
    formRR op (fieldX w) (fieldY w) n = w :=
  hn ▸ formRR_of_fieldN0 h

/-- The row's match of the byte mask, from the two fields the mask keeps. -/
theorem and_byteMask_of_fields {w : Word} {op : Nibble} {nn : Byte} (h : fieldN0 w = op) (hnn : fieldNN w = nn) :
    w &&& 0xF0FF#16 = formRC op 0 nn := by
  rw [← formRC_of_fields h hnn, formRC_and_ends]

/-! ### The groups that read more than the primary opcode (R65, R67 to R69) -/

theorem decode_group0 {w : Word} (h : fieldN0 w = 0x0) : decode w = .ok (decodeGroup0 w) := by simp [decode, h]

theorem decode_group5 {w : Word} (h : fieldN0 w = 0x5) :
    decode w = if fieldN w = 0x0#4 then .ok (.skipIfRegEqual (fieldX w) (fieldY w)) else .error .unknown5 := by simp [decode, h]

theorem decode_group8 {w : Word} (h : fieldN0 w = 0x8) : decode w = decodeGroup8 w := by simp [decode, h]

theorem decode_group9 {w : Word} (h : fieldN0 w = 0x9) :
    decode w = if fieldN w = 0x0#4 then .ok (.skipIfRegNotEqual (fieldX w) (fieldY w)) else .error .unknown9 := by simp [decode, h]

theorem decode_groupE {w : Word} (h : fieldN0 w = 0xE) : decode w = decodeGroupE w := by simp [decode, h]

theorem decode_groupF {w : Word} (h : fieldN0 w = 0xF) : decode w = decodeGroupF w := by simp [decode, h]

/-! ### Decode by rows (R66) -/

theorem decode_of_encode_eq {w : Word} {i : Instr} (hwf : i.wf = true) (h : encode i = w) : decode w = .ok i :=
  h ▸ decode_encode hwf

/-- A row with the operand NNN. -/
theorem decode_of_addrRow {w m : Word} {i : Instr} (hwf : i.wf = true) (hi : encode i = formA (fieldN0 m) (fieldNNN w))
    (h : w &&& 0xF000#16 = m) : decode w = .ok i :=
  decode_of_encode_eq hwf (hi.trans (formA_of_fieldN0 (fieldN0_of_opcodeMask h)))

/-- A row with the operands X and NN. -/
theorem decode_of_constRow {w m : Word} {i : Instr} (hwf : i.wf = true)
    (hi : encode i = formRC (fieldN0 m) (fieldX w) (fieldNN w)) (h : w &&& 0xF000#16 = m) : decode w = .ok i :=
  decode_of_encode_eq hwf (hi.trans (formRC_of_fieldN0 (fieldN0_of_opcodeMask h)))

/-- The row with the operands X, Y and N. -/
theorem decode_of_spriteRow {w m : Word} {i : Instr} (hwf : i.wf = true)
    (hi : encode i = formRR (fieldN0 m) (fieldX w) (fieldY w) (fieldN w)) (h : w &&& 0xF000#16 = m) : decode w = .ok i :=
  decode_of_encode_eq hwf (hi.trans (formRR_of_fieldN0 (fieldN0_of_opcodeMask h)))

/-- A row with the operands X and Y and a sub-opcode in n3. -/
theorem decode_of_pairRow {w m : Word} {i : Instr} (hwf : i.wf = true)
    (hi : encode i = formRR (fieldN0 m) (fieldX w) (fieldY w) (fieldN m)) (h : w &&& 0xF00F#16 = m) : decode w = .ok i :=
  have ⟨hop, hn⟩ := fields_of_nibbleMask h
  decode_of_encode_eq hwf (hi.trans (formRR_of_fields hop hn))

/-- A row with the operand X and a sub-opcode in n2n3. -/
theorem decode_of_regRow {w m : Word} {i : Instr} (hwf : i.wf = true)
    (hi : encode i = formRC (fieldN0 m) (fieldX w) (fieldNN m)) (h : w &&& 0xF0FF#16 = m) : decode w = .ok i :=
  have ⟨hop, hnn⟩ := fields_of_byteMask h
  decode_of_encode_eq hwf (hi.trans (formRC_of_fields hop hnn))

theorem decode_clearScreenRow {w : Word} (h : w &&& 0xF0FF#16 = 0x000E#16) : decode w = .ok .clearScreen := by
  obtain ⟨hop, hnn⟩ := fields_of_byteMask h
  rw [decode_group0 hop, decodeGroup0, hnn]
  rfl

theorem decode_returnFromSubRow {w : Word} (h : w &&& 0xF0FF#16 = 0x00EE#16) : decode w = .ok .returnFromSub := by
  obtain ⟨hop, hnn⟩ := fields_of_byteMask h
  rw [decode_group0 hop, decodeGroup0, hnn]
  rfl

theorem machineCodeCall_wf {w : Word} (hclear : fieldNN w ≠ 0x0E) (hreturn : fieldNN w ≠ 0xEE) :
    (Instr.machineCodeCall (fieldNNN w)).wf = true := by
  simp only [Instr.wf, lowByte_fieldNNN, Bool.and_eq_true, bne_iff_ne]
  exact ⟨hclear, hreturn⟩

/-- The "else" of group 0x0 (R67): where rows 1 and 2 do not match, the low byte is neither of theirs. -/
theorem decode_machineCodeCallRow {w : Word} (h : w &&& 0xF000#16 = 0x0000#16) (hclear : w &&& 0xF0FF#16 ≠ 0x000E#16)
    (hreturn : w &&& 0xF0FF#16 ≠ 0x00EE#16) : decode w = .ok (.machineCodeCall (fieldNNN w)) := by
  have hop : fieldN0 w = 0x0 := fieldN0_of_opcodeMask h
  have hnot0E : fieldNN w ≠ 0x0E := fun hnn => hclear (and_byteMask_of_fields hop hnn)
  have hnotEE : fieldNN w ≠ 0xEE := fun hnn => hreturn (and_byteMask_of_fields hop hnn)
  exact decode_of_addrRow (m := 0x0000#16) (machineCodeCall_wf hnot0E hnotEE) rfl h

/-- Settles O3: each row by the lemma for its operands. -/
theorem decodeFollowsTheOpcodeTable : Obligations.DecodeFollowsTheOpcodeTable := fun _ =>
  ⟨decode_clearScreenRow, decode_returnFromSubRow, decode_machineCodeCallRow,
    decode_of_addrRow rfl rfl, decode_of_addrRow rfl rfl, -- Jump, CallSub
    decode_of_constRow rfl rfl, decode_of_constRow rfl rfl, -- SkipIfEqualConst, SkipIfNotEqualConst
    decode_of_pairRow rfl rfl, -- SkipIfRegEqual
    decode_of_constRow rfl rfl, decode_of_constRow rfl rfl, -- SetConst, AddConst
    decode_of_pairRow rfl rfl, decode_of_pairRow rfl rfl, decode_of_pairRow rfl rfl, -- the nine of group 8
    decode_of_pairRow rfl rfl, decode_of_pairRow rfl rfl, decode_of_pairRow rfl rfl,
    decode_of_pairRow rfl rfl, decode_of_pairRow rfl rfl, decode_of_pairRow rfl rfl,
    decode_of_pairRow rfl rfl, -- SkipIfRegNotEqual
    decode_of_addrRow rfl rfl, decode_of_addrRow rfl rfl, -- SetAddressRegister, JumpWithOffset
    decode_of_constRow rfl rfl, decode_of_spriteRow rfl rfl, -- Random, Draw
    decode_of_regRow rfl rfl, decode_of_regRow rfl rfl, -- the two of group E
    decode_of_regRow rfl rfl, decode_of_regRow rfl rfl, decode_of_regRow rfl rfl, -- the nine of group F
    decode_of_regRow rfl rfl, decode_of_regRow rfl rfl, decode_of_regRow rfl rfl,
    decode_of_regRow rfl rfl, decode_of_regRow rfl rfl, decode_of_regRow rfl rfl⟩

/-! ### Encode after decode -/

theorem encode_of_decodeGroup8 {w : Word} {i : Instr} (hop : fieldN0 w = 0x8) (h : decodeGroup8 w = .ok i) :
    i.wf = true ∧ encode i = w := by
  unfold decodeGroup8 at h
  split_ifs at h with hn hn hn hn hn hn hn hn hn <;> cases h <;> exact ⟨rfl, formRR_of_fields hop hn⟩

theorem encode_of_decodeGroupE {w : Word} {i : Instr} (hop : fieldN0 w = 0xE) (h : decodeGroupE w = .ok i) :
    i.wf = true ∧ encode i = w := by
  unfold decodeGroupE at h
  split_ifs at h with hnn hnn <;> cases h <;> exact ⟨rfl, formRC_of_fields hop hnn⟩

theorem encode_of_decodeGroupF {w : Word} {i : Instr} (hop : fieldN0 w = 0xF) (h : decodeGroupF w = .ok i) :
    i.wf = true ∧ encode i = w := by
  unfold decodeGroupF at h
  split_ifs at h with hnn hnn hnn hnn hnn hnn hnn hnn hnn <;> cases h <;> exact ⟨rfl, formRC_of_fields hop hnn⟩

/-- The groups but 0x0 ignore no bit of the word. -/
theorem encode_of_decode {w : Word} {i : Instr} (hne : fieldN0 w ≠ 0) (h : decode w = .ok i) : i.wf = true ∧ encode i = w := by
  rcases nibble_cases (fieldN0 w) with
    h0 | h1 | h2 | h3 | h4 | h5 | h6 | h7 | h8 | h9 | hA | hB | hC | hD | hE | hF
  · exact absurd h0 hne
  · rw [decode, h1] at h; cases h; exact ⟨rfl, formA_of_fieldN0 h1⟩
  · rw [decode, h2] at h; cases h; exact ⟨rfl, formA_of_fieldN0 h2⟩
  · rw [decode, h3] at h; cases h; exact ⟨rfl, formRC_of_fieldN0 h3⟩
  · rw [decode, h4] at h; cases h; exact ⟨rfl, formRC_of_fieldN0 h4⟩
  · rw [decode_group5 h5] at h
    split_ifs at h with hn
    cases h; exact ⟨rfl, formRR_of_fields h5 hn⟩
  · rw [decode, h6] at h; cases h; exact ⟨rfl, formRC_of_fieldN0 h6⟩
  · rw [decode, h7] at h; cases h; exact ⟨rfl, formRC_of_fieldN0 h7⟩
  · exact encode_of_decodeGroup8 h8 (decode_group8 h8 ▸ h)
  · rw [decode_group9 h9] at h
    split_ifs at h with hn
    cases h; exact ⟨rfl, formRR_of_fields h9 hn⟩
  · rw [decode, hA] at h; cases h; exact ⟨rfl, formA_of_fieldN0 hA⟩
  · rw [decode, hB] at h; cases h; exact ⟨rfl, formA_of_fieldN0 hB⟩
  · rw [decode, hC] at h; cases h; exact ⟨rfl, formRC_of_fieldN0 hC⟩
  · rw [decode, hD] at h; cases h; exact ⟨rfl, formRR_of_fieldN0 hD⟩
  · exact encode_of_decodeGroupE hE (decode_groupE hE ▸ h)
  · exact encode_of_decodeGroupF hF (decode_groupF hF ▸ h)

/-- Settles O2: group 0x0 by its three rows; elsewhere the word is its instruction's, which is then neither of the two exceptions or is
its own masked word. -/
theorem encodeOfDecodeReturnsWord : Obligations.EncodeOfDecodeReturnsWord := by
  intro w i h
  by_cases hop : fieldN0 w = 0x0
  · rw [decode_group0 hop, decodeGroup0] at h
    split_ifs at h with hclear hreturn <;> cases h
    · exact ⟨rfl, (and_byteMask_of_fields hop hclear).symm⟩
    · exact ⟨rfl, (and_byteMask_of_fields hop hreturn).symm⟩
    · exact ⟨machineCodeCall_wf hclear hreturn, formA_of_fieldN0 hop⟩
  · obtain ⟨hwf, rfl⟩ := encode_of_decode hop h
    refine ⟨hwf, ?_⟩
    split_ifs with hi
    · rcases hi with rfl | rfl
      · exact Laws.RowMatch.clearScreen
      · exact Laws.RowMatch.returnFromSub
    · rfl

/-! ### The Unknown words (R70) -/

/-- R70 in the fields of R61: the words each rejection names. -/
def Reject.Names (w : Word) : Reject → Prop
  | .unknown5 => fieldN0 w = 0x5 ∧ fieldN w ≠ 0
  | .unknown8 => fieldN0 w = 0x8 ∧ (fieldN w = 0x8 ∨ fieldN w = 0x9 ∨ fieldN w = 0xA ∨ fieldN w = 0xB ∨ fieldN w = 0xC ∨
      fieldN w = 0xD ∨ fieldN w = 0xF)
  | .unknown9 => fieldN0 w = 0x9 ∧ fieldN w ≠ 0
  | .unknownE => fieldN0 w = 0xE ∧ fieldNN w ≠ 0x9E ∧ fieldNN w ≠ 0xA1
  | .unknownF => fieldN0 w = 0xF ∧ fieldNN w ≠ 0x07 ∧ fieldNN w ≠ 0x0A ∧ fieldNN w ≠ 0x15 ∧ fieldNN w ≠ 0x18 ∧ fieldNN w ≠ 0x1E ∧
      fieldNN w ≠ 0x29 ∧ fieldNN w ≠ 0x33 ∧ fieldNN w ≠ 0x55 ∧ fieldNN w ≠ 0x65
  | .truncated => False

theorem decode_group5_error_iff {w : Word} {r : Reject} (h : fieldN0 w = 0x5) :
    decode w = .error r ↔ .unknown5 = r ∧ Reject.unknown5.Names w := by
  rw [decode_group5 h]
  split_ifs <;> simp [Reject.Names, *]

theorem decode_group8_error_iff {w : Word} {r : Reject} (h : fieldN0 w = 0x8) :
    decode w = .error r ↔ .unknown8 = r ∧ Reject.unknown8.Names w := by
  rw [decode_group8 h]
  rcases nibble_cases (fieldN w) with hn | hn | hn | hn | hn | hn | hn | hn | hn | hn | hn | hn | hn | hn | hn | hn
    <;> simp [decodeGroup8, Reject.Names, h, hn]

theorem decode_group9_error_iff {w : Word} {r : Reject} (h : fieldN0 w = 0x9) :
    decode w = .error r ↔ .unknown9 = r ∧ Reject.unknown9.Names w := by
  rw [decode_group9 h]
  split_ifs <;> simp [Reject.Names, *]

theorem decode_groupE_error_iff {w : Word} {r : Reject} (h : fieldN0 w = 0xE) :
    decode w = .error r ↔ .unknownE = r ∧ Reject.unknownE.Names w := by
  rw [decode_groupE h, decodeGroupE]
  split_ifs <;> simp [Reject.Names, *]

theorem decode_groupF_error_iff {w : Word} {r : Reject} (h : fieldN0 w = 0xF) :
    decode w = .error r ↔ .unknownF = r ∧ Reject.unknownF.Names w := by
  rw [decode_groupF h, decodeGroupF]
  split_ifs <;> simp [Reject.Names, *]

/-- The other eleven groups have an instruction for every word. -/
theorem exists_decode {w : Word} (h5 : fieldN0 w ≠ 0x5) (h8 : fieldN0 w ≠ 0x8) (h9 : fieldN0 w ≠ 0x9) (hE : fieldN0 w ≠ 0xE)
    (hF : fieldN0 w ≠ 0xF) : ∃ i, decode w = .ok i := by
  rcases nibble_cases (fieldN0 w) with
    hop | hop | hop | hop | hop | hop | hop | hop | hop | hop | hop | hop | hop | hop | hop | hop <;> simp_all [decode]

theorem decode_error_iff (w : Word) (r : Reject) : decode w = .error r ↔ r.Names w := by
  by_cases h5 : fieldN0 w = 0x5
  · rw [decode_group5_error_iff h5]
    cases r <;> simp [Reject.Names, h5]
  by_cases h8 : fieldN0 w = 0x8
  · rw [decode_group8_error_iff h8]
    cases r <;> simp [Reject.Names, h8]
  by_cases h9 : fieldN0 w = 0x9
  · rw [decode_group9_error_iff h9]
    cases r <;> simp [Reject.Names, h9]
  by_cases hE : fieldN0 w = 0xE
  · rw [decode_groupE_error_iff hE]
    cases r <;> simp [Reject.Names, hE]
  by_cases hF : fieldN0 w = 0xF
  · rw [decode_groupF_error_iff hF]
    cases r <;> simp [Reject.Names, hF]
  obtain ⟨i, hi⟩ := exists_decode h5 h8 h9 hE hF
  rw [hi]
  refine ⟨nofun, fun h => ?_⟩
  match r, h with
  | .unknown5, ⟨hop, _⟩ => exact absurd hop h5
  | .unknown8, ⟨hop, _⟩ => exact absurd hop h8
  | .unknown9, ⟨hop, _⟩ => exact absurd hop h9
  | .unknownE, ⟨hop, _⟩ => exact absurd hop hE
  | .unknownF, ⟨hop, _⟩ => exact absurd hop hF

theorem opcodeMask_iff (w : Word) (op : Nibble) : w &&& 0xF000#16 = (op ++ 0#12 : BitVec 16) ↔ fieldN0 w = op := by
  rw [and_opcodeMask, BitVec.append_left_inj]

theorem lowNibbleMask_iff (w : Word) (n : Nibble) : w &&& 0x000F#16 = (0#12 ++ n : BitVec 16) ↔ fieldN w = n := by
  rw [and_lowNibbleMask, BitVec.append_right_inj]

theorem lowByteMask_iff (w : Word) (nn : Byte) : w &&& 0x00FF#16 = (0#8 ++ nn : BitVec 16) ↔ fieldNN w = nn := by
  rw [and_lowByteMask, BitVec.append_right_inj]

/-- Settles O4: what each rejection names, with the fields read through the masks. -/
theorem unknownWordsAreTheListedOnes : Obligations.UnknownWordsAreTheListedOnes := by
  intro w
  have hop := opcodeMask_iff w
  have hn := lowNibbleMask_iff w
  have hne (nn : Byte) := not_congr (lowByteMask_iff w nn)
  refine ⟨(decode_error_iff w .unknown5).trans (and_congr (hop 0x5) (not_congr (hn 0x0))).symm,
    (decode_error_iff w .unknown8).trans (and_congr (hop 0x8) ?_).symm,
    (decode_error_iff w .unknown9).trans (and_congr (hop 0x9) (not_congr (hn 0x0))).symm,
    (decode_error_iff w .unknownE).trans (and_congr (hop 0xE) (and_congr (hne 0x9E) (hne 0xA1))).symm,
    (decode_error_iff w .unknownF).trans (and_congr (hop 0xF) ?_).symm,
    (decode_error_iff w .truncated).mp⟩
  · exact or_congr (hn 0x8) <| or_congr (hn 0x9) <| or_congr (hn 0xA) <| or_congr (hn 0xB) <| or_congr (hn 0xC) <|
      or_congr (hn 0xD) (hn 0xF)
  · exact and_congr (hne 0x07) <| and_congr (hne 0x0A) <| and_congr (hne 0x15) <| and_congr (hne 0x18) <| and_congr (hne 0x1E) <|
      and_congr (hne 0x29) <| and_congr (hne 0x33) <| and_congr (hne 0x55) (hne 0x65)

/-- Settles O5: each word evaluated. -/
theorem decoderReadsTheWordsTheSpecWrites : Obligations.DecoderReadsTheWordsTheSpecWrites := by
  unfold Obligations.DecoderReadsTheWordsTheSpecWrites
  decide

end Sys2Proof
end

section
/-! PROOFS. The step (40_step_cycle.md R80 to R91): it runs the decoded instruction and ticks, is total, and its faults are precise and
read neither the keypad nor the random byte; the timers' instructions with the tick (R160 to R162), the one-shot beep (R89), and the wait
steps of BlockingGetKey (R163). -/

namespace Sys2Proof.Machine

/-! ### The step runs the decoded instruction (R80) -/

/-- Settles O6: the step is the effect with `tick` after it, and each outcome of the effect passes through. -/
theorem stepRunsTheDecodedInstruction : Obligations.StepRunsTheDecodedInstruction := by
  intro s i hp hd
  rw [step_eq_of_decode hp hd]
  cases exec i s with
  | next t => rfl
  | fault f => rfl
  | refused r => rfl

/-! ### The step is total (R90) -/

/-- No step is refused: the fetch and the decoder raise faults only, and no instruction is without a meaning. -/
theorem step_ne_refused (s : State) (r : Refusal) : step s ≠ .refused r := by
  rcases step_cases s with ⟨-, hs⟩ | ⟨-, -, hs⟩ | ⟨-, i, -, hs⟩ <;> rw [hs]
  · nofun
  · nofun
  · exact fun h => exec_ne_refused i s r (tickAfter_refused_iff.mp h)

/-- Settles O13: of the three outcomes the refusal never comes, and a step answers one of them only. -/
theorem everyStepCompletesOrFaults : Obligations.EveryStepCompletesOrFaults := by
  intro s
  refine ⟨?_, ?_, step_ne_refused s⟩
  · cases h : step s with
    | next t => exact .inl ⟨t, h⟩
    | fault f => exact .inr ⟨f, h⟩
    | refused r => exact absurd h (step_ne_refused s r)
  · rintro ⟨⟨t, ht⟩, f, hf⟩
    cases ht.symm.trans hf

/-! ### Faults are precise (R91, R173) -/

/-- The fault of a step depends on memory, pc, I, SP and V only. -/
theorem step_fault_of_same {s s' : State} {f : Fault} (h : step s = .fault f) (hmem : s'.mem = s.mem) (hpc : s'.pc = s.pc)
    (hi : s'.i = s.i) (hsp : s'.sp = s.sp) (hv : s'.v = s.v) : step s' = .fault f := by
  have hw : fetchedWord s' = fetchedWord s := by simp only [fetchedWord, State.byteAt, hmem, hpc]
  rcases step_cases s with ⟨hp, hs⟩ | ⟨hp, ⟨r, hd⟩, hs⟩ | ⟨hp, i, hd, hs⟩ <;> rw [← hpc] at hp <;> rw [hs] at h
  · rw [← h]
    exact step_eq_of_range hp
  · rw [← h, ← hw, ← hpc]
    exact step_eq_of_unknown hp (by rwa [hw])
  · rw [step_eq_of_decode hp (by rwa [hw]), tickAfter_fault_iff]
    exact exec_of_faults ((faults_of_exec (tickAfter_fault_iff.mp h)).of_same_i_sp_v hi hsp hv)

/-- Settles O12: the host keeps the state before the fault, and no fault asks for the keypad or the count of random bytes. -/
theorem faultIsPreciseAndRepeats : Obligations.FaultIsPreciseAndRepeats := by
  intro s f h
  have hs := hostStep_of_fault h
  exact ⟨hs, by rw [hs, hs], fun _ _ => step_fault_of_same h rfl rfl rfl rfl rfl⟩

/-! ### Only Random reads the random byte (R131) -/

theorem Effect.replaceDraws {i : Instr} {s t : State} (e : Effect s i t) (n : Nat) (hi : ∀ x nn, i ≠ .random x nn) :
    Effect { s with draws := n } i { t with draws := n } := by
  cases e with
  | random x nn => exact absurd rfl (hi x nn)
  | registerLoad x hr =>
    have hload := Effect.registerLoad (s := { s with draws := n }) x hr
    rw [setRegs_draws] at hload
    exact hload
  | _ => constructor <;> assumption

/-- Settles O48: as O49, with the count of random bytes in the place of the flags. -/
theorem onlyRandomReadsTheRandomByte : Obligations.OnlyRandomReadsTheRandomByte := fun _ _ n hi =>
  ⟨fun _ h => exec_of_effect ((effect_of_exec h).replaceDraws n hi),
    fun _ h => exec_of_faults ((faults_of_exec h).of_same_i_sp_v rfl rfl rfl)⟩

/-! ### The beep (R89) and the timer instructions (R160 to R162) -/

theorem tick_beeped_iff (s : State) : (tick s).outcome = .beeped ↔ s.st = 1 := by
  by_cases hst : s.st = 1 <;> simp [hst]

/-- A completed instruction that takes ST from 0 to 1 is a SetSound of a register that holds 1. -/
theorem setSound_of_exec_starts_st {i : Instr} {s t : State} (h : exec i s = .next t) (hs : s.st = 0) (ht : t.st = 1) :
    ∃ x, i = .setSound x ∧ s.reg x = 1 := by
  obtain ⟨-, -, -, -, hwriter, -⟩ := onlyWritersChangeSpecialRegisters i s t h
  obtain ⟨x, rfl⟩ := hwriter (by rw [hs, ht]; decide)
  cases h
  exact ⟨x, rfl, ht⟩

/-- Settles O11: a beep leaves ST = 0, and the next one needs ST = 1 again before its tick. -/
theorem beepIsOneShot : Obligations.BeepIsOneShot := by
  intro s t u hst ht htu hu
  obtain ⟨-, -, s', -, -, rfl⟩ := step_next hst
  obtain ⟨-, i, t', hd, hexec, rfl⟩ := step_next htu
  have hzero : (tick s').st = 0 := by simp [(tick_beeped_iff s').mp ht, countDown]
  obtain ⟨x, rfl, hx⟩ := setSound_of_exec_starts_st hexec hzero ((tick_beeped_iff t').mp hu)
  exact ⟨x, hd, hx⟩

/-- Settles O41: each word is the encoder's, each effect is one write, and the tick counts the timer down. -/
theorem timerInstructions : Obligations.TimerInstructions := by
  intro x s
  refine ⟨decode_encode (i := .getDelay x) rfl, decode_encode (i := .setDelay x) rfl, decode_encode (i := .setSound x) rfl,
    ⟨_, exec_of_effect (.getDelay x), ?_, fun k hk => ?_, rfl, countDown_toNat s.dt⟩,
    ⟨exec_of_effect (.setDelay x), countDown_toNat (s.reg x)⟩,
    exec_of_effect (.setSound x), countDown_toNat (s.reg x), tick_beeped_iff _⟩
  · simp
  · simp [hk]

/-! ### Waiting for a key (R163) -/

/-- Where the word at pc is BlockingGetKey and no key is held, the step is its tick alone. -/
theorem step_wait {x : Reg} {s : State} (hp : s.pc.toNat + 2 ≤ 4096) (hd : decode (fetchedWord s) = .ok (.blockingGetKey x))
    (hk : ∀ k : Reg, s.keyHeld k = false) : step s = .next (tick s) := by
  rw [step_eq_of_decode hp hd, exec_of_effect (.wait x (lowestKey_none_iff.mpr hk)), tickAfter]

/-- A run whose first step completes goes on from the state after it. -/
theorem run_succ_of_step (M : Host.Core) {s t : M.State} (h : M.step s = .next t) (n : Nat) : M.run (n + 1) s = M.run n t := by
  simp only [Host.Core.run, h]

/-- n wait steps are n ticks: a tick touches neither the word at pc nor the keys. -/
theorem run_wait {x : Reg} {s : State} (hp : s.pc.toNat + 2 ≤ 4096) (hd : decode (fetchedWord s) = .ok (.blockingGetKey x))
    (hk : ∀ k : Reg, s.keyHeld k = false) (n : Nat) : Host.Core.run Sys2Proof.core n s = .next (tick^[n] s) := by
  induction n generalizing s with
  | zero => rfl
  | succ n ih =>
    have hstep : Sys2Proof.core.step s = .next (tick s) := step_wait hp hd hk
    exact (run_succ_of_step Sys2Proof.core hstep n).trans (ih (s := tick s) hp hd hk)

theorem tick_iterate_dt (s : State) (n : Nat) : (tick^[n] s).dt.toNat = s.dt.toNat - n := by
  induction n with
  | zero => rfl
  | succ n ih => rw [Function.iterate_succ_apply', State.tick_dt, countDown_toNat, ih, Nat.sub_sub]

theorem tick_iterate_st (s : State) (n : Nat) : (tick^[n] s).st.toNat = s.st.toNat - n := by
  induction n with
  | zero => rfl
  | succ n ih => rw [Function.iterate_succ_apply', State.tick_st, countDown_toNat, ih, Nat.sub_sub]

/-- Ticks touch the timers and the outcome only. -/
theorem tick_iterate_eq (s : State) (n : Nat) :
    tick^[n] s = { s with dt := (tick^[n] s).dt, st := (tick^[n] s).st, outcome := (tick^[n] s).outcome } := by
  induction n generalizing s with
  | zero => rfl
  | succ n ih => exact ih (tick s)

/-- Settles O43: the run of n wait steps is n ticks, and those count both timers down by n. -/
theorem waitingRepeatsForEver : Obligations.WaitingRepeatsForEver := by
  intro x s hp hd hk n
  have hrun := run_wait hp hd hk n
  refine ⟨⟨_, hrun⟩, fun t ht => ?_⟩
  cases hrun.symm.trans ht
  exact ⟨tick_iterate_dt s n, tick_iterate_st s n, tick_iterate_eq s n⟩

end Sys2Proof.Machine
end

section
/-! PROOFS. The control flow (41_flow.md R100 to R104): the jumps, a call and the return from it, each off its effect; and the end of a
run, a Jump to itself with both timers 0 (R199), as a fixed point of the step. -/

namespace Sys2Proof.Machine

/-! ### The instructions one by one (R100 to R104) -/

/-- Settles O16: the word is the encoder's wherever the operand is well formed; the effect is `advance` for every operand. -/
theorem machineCodeCallOnlyAdvances : Obligations.MachineCodeCallOnlyAdvances := by
  refine fun addr s => ⟨fun hclear hreturn => ?_, exec_of_effect (.machineCodeCall addr)⟩
  have hwf : (Instr.machineCodeCall addr).wf = true := by simp [Instr.wf, hclear, hreturn]
  exact decode_encode (i := .machineCodeCall addr) hwf

/-- Settles O17: the word is the encoder's, and the effect is one write of pc. -/
theorem jumpSetsPc : Obligations.JumpSetsPc := fun addr _ =>
  ⟨decode_encode (i := .jump addr) rfl, exec_of_effect (.jump addr)⟩

/-- Reading the stack after a push at SP (R17). -/
theorem slot_setSlot_sp (s : State) (w : Word) (h : s.sp.val < 16) (k : Fin 16) :
    (s.setSlot ⟨s.sp.val, h⟩ w).slot k = if k.val = s.sp.val then w else s.slot k := by
  simp only [State.setSlot_slot, Fin.ext_iff]

/-- Settles O18: the effect where a slot is free, the fault where none is. -/
theorem callSubPushesTheNextPc : Obligations.CallSubPushesTheNextPc := fun addr s =>
  ⟨decode_encode (i := .callSub addr) rfl,
    fun h => ⟨_, exec_of_effect (.callSub addr h), rfl, slot_setSlot_sp s (s.pc + 2) h, rfl⟩,
    fun h => exec_of_faults (.callSub addr h)⟩

/-- Settles O19: the word by its row, whose mask leaves n1 out; the effect where a slot is taken, the fault where none is. -/
theorem returnFromSubPopsIntoPc : Obligations.ReturnFromSubPopsIntoPc := fun x _ =>
  ⟨decode_returnFromSubRow (formRC_and_ends 0x0 x 0xEE),
    fun h => ⟨_, _, exec_of_effect (.returnFromSub h), Nat.sub_add_cancel h, rfl, rfl⟩,
    fun h => exec_of_faults (.returnFromSub h)⟩

/-- The sum of R104 stays below 2 ^ 16. -/
theorem toNat_offsetTarget (s : State) (addr : Addr) : (offsetTarget s addr).toNat = addr.toNat + (s.reg 0).toNat := by
  have ha := addr.isLt
  have hb := (s.reg 0).isLt
  simp only [offsetTarget, addrWord, byteWord, BitVec.toNat_add, BitVec.toNat_setWidth]
  omega

/-- Settles O20: the word is the encoder's, and the effect writes the sum to pc. -/
theorem jumpWithOffsetAddsV0 : Obligations.JumpWithOffsetAddsV0 := fun addr s =>
  ⟨decode_encode (i := .jumpWithOffset addr) rfl, _, exec_of_effect (.jumpWithOffset addr), toNat_offsetTarget s addr, rfl⟩

/-! ### A call and its return (R102, R103) -/

/-- Settles O21: the call leaves SP one above the slot it wrote, so the return reads that slot and puts SP back. -/
theorem callThenReturnComesBack : Obligations.CallThenReturnComesBack := by
  intro addr s h
  have hslot := slot_setSlot_sp s (s.pc + 2) h
  have htop : (s.setSlot ⟨s.sp.val, h⟩ (s.pc + 2)).slot ⟨s.sp.val, h⟩ = s.pc + 2 := by rw [hslot, if_pos rfl]
  exact ⟨_, _, exec_of_effect (.callSub addr h), exec_of_effect (.returnFromSub (Nat.succ_pos s.sp.val)), htop, rfl, hslot, rfl⟩

/-! ### The end of a run (R199) -/

/-- A tick with both timers 0 only records Continue (R19, R89). -/
theorem tick_of_timers_zero {s : State} (hdt : s.dt = 0) (hst : s.st = 0) : tick s = s.setOutcome .cont := by
  cases s
  subst hdt hst
  rfl

/-- The step of a run that has ended well: the Jump writes the pc it found, and the tick has nothing to count down. -/
theorem State.EndedWell.step_eq {s : State} (h : s.EndedWell) : step s = .next (s.setOutcome .cont) := by
  obtain ⟨w, addr, hfetch, hd, hself, hdt, hst⟩ := h
  obtain ⟨hp, rfl⟩ := fetch_ok_iff.mp hfetch
  have hjump : exec (.jump addr) s = .next s := by rw [exec_of_effect (.jump addr), hself]; rfl
  rw [step_eq_of_decode hp hd, hjump, tickAfter, tick_of_timers_zero hdt hst]

/-- Nothing the end of a run asks for is the outcome field. -/
theorem State.EndedWell.setOutcome {s : State} (h : s.EndedWell) (o : CycleOutcome) : (s.setOutcome o).EndedWell := h

/-- Where one step answers the state itself, every run does. -/
theorem run_of_step_self (M : Host.Core) {s : M.State} (h : M.step s = .next s) (n : Nat) : M.run n s = .next s := by
  induction n with
  | zero => rfl
  | succ n ih => exact (run_succ_of_step M h n).trans ih

/-- Once Continue is recorded, an ended run stays in the state it is in. -/
theorem State.EndedWell.run_eq {s : State} (h : s.EndedWell) (ho : s.outcome = .cont) (n : Nat) :
    Host.Core.run Sys2Proof.core n s = .next s := by
  have hself : s.setOutcome .cont = s := by rw [← ho]; rfl
  have hstep : Sys2Proof.core.step s = .next s := h.step_eq.trans (congrArg _ hself)
  exact run_of_step_self Sys2Proof.core hstep n

theorem State.EndedWell.safeFor {s : State} (h : s.EndedWell) (n : Nat) : s.SafeFor n := by
  cases n with
  | zero => exact ⟨s, rfl⟩
  | succ n =>
    exact ⟨_, (run_succ_of_step Sys2Proof.core h.step_eq n).trans ((h.setOutcome .cont).run_eq rfl n)⟩

/-- Settles O60: the first step records Continue, and from there the step answers its own state. -/
theorem endedRunIsAFixedPoint : Obligations.EndedRunIsAFixedPoint := fun _ h =>
  ⟨h.step_eq, fun n => ⟨h.safeFor n, fun ho => h.run_eq ho n⟩⟩

end Sys2Proof.Machine
end

section
/-! PROOFS. The conditional skips (42_skip.md R110 to R115): the words by the encoder or by the two groups that require n3 = 0, the effects
by one rule for every skip whose condition is known. -/

namespace Sys2Proof

/-! ### The groups that require n3 = 0 (R65), on a word put together in format RR -/

theorem decode_formRR_group5 (x y : Reg) (n : Nibble) :
    decode (formRR 0x5 x y n) = if n = 0x0#4 then .ok (.skipIfRegEqual x y) else .error .unknown5 := by
  rw [decode_group5 (fieldN0_formRR 0x5 x y n), fieldX_formRR, fieldY_formRR, fieldN_formRR]

theorem decode_formRR_group9 (x y : Reg) (n : Nibble) :
    decode (formRR 0x9 x y n) = if n = 0x0#4 then .ok (.skipIfRegNotEqual x y) else .error .unknown9 := by
  rw [decode_group9 (fieldN0_formRR 0x9 x y n), fieldX_formRR, fieldY_formRR, fieldN_formRR]

end Sys2Proof

namespace Sys2Proof.Machine

/-! ### The skip class (R85) -/

theorem State.skipIf_eq_of_iff (s : State) {c : Bool} {p : Prop} [Decidable p] (h : c = true ↔ p) :
    s.skipIf c = { s with pc := if p then s.pc + 4 else s.pc + 2 } :=
  congrArg s.setPc (if_congr h rfl rfl)

/-- An instruction whose effect is a skip on `c` completes, and only pc changes: by 4 where the condition `p` that `c` tests holds. -/
theorem exec_of_skip_effect {i : Instr} {s : State} {c : Bool} {p : Prop} [Decidable p] (e : Effect s i (s.skipIf c))
    (h : c = true ↔ p) : exec i s = .next { s with pc := if p then s.pc + 4 else s.pc + 2 } := by
  rw [exec_of_effect e, s.skipIf_eq_of_iff h]

/-! ### The instructions by their operands (R110 to R115) -/

/-- Settles O22: each word is the encoder's, and each effect is a skip on its comparison. -/
theorem constantSkips : Obligations.ConstantSkips := fun x nn _ =>
  ⟨decode_encode (i := .skipIfEqualConst x nn) rfl, decode_encode (i := .skipIfNotEqualConst x nn) rfl,
    exec_of_skip_effect (.skipIfEqualConst x nn) beq_iff_eq, exec_of_skip_effect (.skipIfNotEqualConst x nn) bne_iff_ne⟩

/-- Settles O23: each word by its group, which asks for n3 = 0; each effect is a skip on its comparison. -/
theorem registerSkips : Obligations.RegisterSkips := fun x y n _ =>
  ⟨decode_formRR_group5 x y n, decode_formRR_group9 x y n,
    exec_of_skip_effect (.skipIfRegEqual x y) beq_iff_eq, exec_of_skip_effect (.skipIfRegNotEqual x y) bne_iff_ne⟩

/-- Settles O24: each word is the encoder's; where V[X] names a key the effect is a skip on that key's flag, and elsewhere the
instruction faults. -/
theorem keySkips : Obligations.KeySkips := by
  refine fun x s => ⟨decode_encode (i := .skipIfKey x) rfl, decode_encode (i := .skipIfNotKey x) rfl, fun k hk => ?_, fun h =>
    ⟨exec_of_faults (.skipIfKey x h), exec_of_faults (.skipIfNotKey x h)⟩⟩
  have hx : (s.reg x).toNat < 16 := hk ▸ k.isLt
  obtain rfl : ⟨(s.reg x).toNat, hx⟩ = k := Fin.ext hk
  exact ⟨exec_of_skip_effect (.skipIfKey x hx) Iff.rfl, exec_of_skip_effect (.skipIfNotKey x hx) (iff_of_eq (Bool.not_eq_true' _))⟩

end Sys2Proof.Machine
end

section
/-! PROOFS. Constants, moves, logic, sums, differences and Random (43_alu.md R120 to R127, R129, R131). Each word is the encoder's. The
instructions that write one register and no flag go by one rule, those that write a result and then a flag by another; what is left of
each is the value written, read as a number or bit by bit. -/

namespace Sys2Proof.Machine

/-! ### One register written, no flag -/

/-- Everything a sequential instruction that writes `b` to V[X] leaves behind (R11, R85). -/
theorem done_setReg (s : State) (x : Reg) (b : Byte) :
    ∃ t, done (s.setReg x b) = .next t ∧ t.reg x = b ∧ (∀ k, k ≠ x → t.reg k = s.reg k) ∧
      t = { s with v := t.v, pc := s.pc + 2 } :=
  ⟨_, rfl, s.setReg_reg_self x b, fun _ hk => s.setReg_reg_ne b hk, rfl⟩

/-- An instruction whose effect is one register write on `u`; `u` is the starting state, or that state with a random byte taken. -/
theorem exec_of_setReg_effect {i : Instr} {s u : State} {x : Reg} {b : Byte} (e : Effect s i (u.setReg x b).advance) :
    ∃ t, exec i s = .next t ∧ t.reg x = b ∧ (∀ k, k ≠ x → t.reg k = u.reg k) ∧ t = { u with v := t.v, pc := u.pc + 2 } :=
  (done_setReg u x b).imp fun _ ⟨ht, hframe⟩ => ⟨(exec_of_effect e).trans ht, hframe⟩

/-- Settles O25: both effects write one register, the second the sum as a number mod 256. -/
theorem constantWrites : Obligations.ConstantWrites := fun x nn s =>
  ⟨decode_encode (i := .setConst x nn) rfl, decode_encode (i := .addConst x nn) rfl,
    exec_of_setReg_effect (.setConst x nn),
    (exec_of_setReg_effect (.addConst x nn)).imp fun _ ⟨ht, hx, hframe⟩ => ⟨ht, by rw [hx, BitVec.toNat_add], hframe⟩⟩

/-- Settles O26: the four effects write one register, the last three a value that is read bit by bit. -/
theorem moveAndLogic : Obligations.MoveAndLogic := fun x y s =>
  ⟨decode_encode (i := .set x y) rfl, decode_encode (i := .or x y) rfl, decode_encode (i := .and x y) rfl,
    decode_encode (i := .xor x y) rfl, exec_of_setReg_effect (.set x y),
    (exec_of_setReg_effect (.or x y)).imp fun _ ⟨ht, hx, hframe⟩ => ⟨ht, fun b => by rw [hx, BitVec.getLsbD_or], hframe⟩,
    (exec_of_setReg_effect (.and x y)).imp fun _ ⟨ht, hx, hframe⟩ => ⟨ht, fun b => by rw [hx, BitVec.getLsbD_and], hframe⟩,
    (exec_of_setReg_effect (.xor x y)).imp fun _ ⟨ht, hx, hframe⟩ => ⟨ht, fun b => by rw [hx, BitVec.getLsbD_xor], hframe⟩⟩

/-! ### Random -/

theorem and_mask_and_not_mask (b mask : Byte) : b &&& mask &&& ~~~mask = 0 := by
  rw [BitVec.and_assoc, BitVec.and_not_self]
  exact BitVec.and_zero

/-- Settles O30: `setMasked` is one register write for every byte; Random is that write on the state with one more byte taken. -/
theorem randomIsMasked : Obligations.RandomIsMasked := fun x nn s =>
  ⟨decode_encode (i := .random x nn) rfl, fun rnd => done_setReg s x (rnd &&& nn),
    (exec_of_setReg_effect (.random x nn)).imp fun _ ⟨ht, hx, hframe⟩ => ⟨ht, hx, by rw [hx, and_mask_and_not_mask], hframe⟩⟩

/-! ### A result, then a flag -/

theorem exec_of_setResultAndFlag_effect {i : Instr} {s : State} {x : Reg} {r : Byte} {c : Bool}
    (e : Effect s i (s.setResultAndFlag x r c).advance) :
    ∃ t, exec i s = .next t ∧ (x ≠ flagReg → t.reg x = r) ∧ t.reg flagReg = flagByte c ∧
      (∀ k, k ≠ x → k ≠ flagReg → t.reg k = s.reg k) ∧ t = { s with v := t.v, pc := s.pc + 2 } :=
  (done_setResultAndFlag s x r c).imp fun _ ⟨ht, hframe⟩ => ⟨(exec_of_effect e).trans ht, hframe⟩

theorem flagByte_decide (p : Prop) [Decidable p] : flagByte (decide p) = if p then 1 else 0 :=
  if_congr decide_eq_true_iff rfl rfl

theorem flagByte_carryOut (a b : Byte) : flagByte (carryOut a b) = if a.toNat + b.toNat ≥ 256 then 1 else 0 :=
  flagByte_decide _

theorem flagByte_noBorrow (a b : Byte) : flagByte (noBorrow a b) = if a.toNat ≥ b.toNat then 1 else 0 :=
  flagByte_decide _

/-- A difference of bytes as an integer: where it borrows, the integer difference is negative and its remainder is the wrapped byte. -/
theorem cast_toNat_sub (a b : Byte) : ((a - b).toNat : Int) = (a.toNat - b.toNat : Int) % 256 := by
  have hb : b.toNat < 256 := b.isLt
  rw [BitVec.toNat_sub]
  omega

/-- Settles O27: the sum where X is not 0xF, and the carry in V[0xF] for every X. -/
theorem addWithCarryResult : Obligations.AddWithCarryResult := fun x y s =>
  ⟨decode_encode (i := .addWithCarry x y) rfl,
    (exec_of_setResultAndFlag_effect (.addWithCarry x y)).imp fun _ ⟨ht, hx, hflag, hframe⟩ =>
      ⟨ht, fun h => by rw [hx h, BitVec.toNat_add], hflag.trans (flagByte_carryOut _ _), hframe⟩⟩

/-- Settles O28: two differences with their operands exchanged, each with its not-borrow in V[0xF]. -/
theorem subtractionResults : Obligations.SubtractionResults := fun x y s =>
  ⟨decode_encode (i := .subWithBorrow x y) rfl, decode_encode (i := .reverseSub x y) rfl,
    (exec_of_setResultAndFlag_effect (.subWithBorrow x y)).imp fun _ ⟨ht, hx, hflag, hframe⟩ =>
      ⟨ht, fun h => by rw [hx h, cast_toNat_sub], hflag.trans (flagByte_noBorrow _ _), hframe⟩,
    (exec_of_setResultAndFlag_effect (.reverseSub x y)).imp fun _ ⟨ht, hx, hflag, hframe⟩ =>
      ⟨ht, fun h => by rw [hx h, cast_toNat_sub], hflag.trans (flagByte_noBorrow _ _), hframe⟩⟩

end Sys2Proof.Machine
end

section
/-! PROOFS. The address register and the memory instructions (44_index_memory.md R140 to R145). The writers of I go by one rule and the
two stores by another; a dump and the load that follows it are read off the statements about each. -/

namespace Sys2Proof.Machine

/-! ### The writers of I (R140 to R142) -/

theorem toNat_addrWord (addr : Addr) : (addrWord addr).toNat = addr.toNat :=
  BitVec.toNat_setWidth_of_le (by decide)

theorem toNat_addressPlus (s : State) (x : Reg) : (addressPlus s x).toNat = (s.i.toNat + (s.reg x).toNat) % 4096 := by
  rw [addressPlus, BitVec.toNat_ofNat]
  omega

/-- The product of R142 stays below 2 ^ 16. -/
theorem toNat_spriteAddress (s : State) (x : Reg) : (spriteAddress s x).toNat = (s.reg x).toNat * 5 := by
  have hb := (s.reg x).isLt
  rw [spriteAddress, BitVec.toNat_ofNat]
  omega

/-- An instruction whose effect is one write of I completes with the number written there, and only I and pc change. -/
theorem exec_of_setI_effect {i : Instr} {s : State} {w : Word} {n : Nat} (e : Effect s i (s.setI w).advance) (h : w.toNat = n) :
    ∃ t, exec i s = .next t ∧ t.i.toNat = n ∧ t = { s with i := t.i, pc := s.pc + 2 } :=
  ⟨_, exec_of_effect e, h, rfl⟩

/-- Settles O31: each word is the encoder's, and each effect writes I with a word that is the number named. -/
theorem addressRegisterWrites : Obligations.AddressRegisterWrites := fun addr x s =>
  ⟨decode_encode (i := .setAddressRegister addr) rfl, decode_encode (i := .addToAddressRegister x) rfl,
    decode_encode (i := .setAddressRegisterToSpriteFor x) rfl,
    exec_of_setI_effect (.setAddressRegister addr) (toNat_addrWord addr),
    exec_of_setI_effect (.addToAddressRegister x) (toNat_addressPlus s x),
    exec_of_setI_effect (.setAddressRegisterToSpriteFor x) (toNat_spriteAddress s x)⟩

/-! ### The stores at I (R143, R144) -/

/-- An instruction whose effect is one store at I completes with byte k of the list at I + k, and only that range and pc change. -/
theorem exec_of_store_effect {i : Instr} {s : State} {bs : List Byte}
    (e : Effect s i (s.setMem (s.mem.writeBytes s.base bs)).advance) :
    ∃ t, exec i s = .next t ∧ (∀ k, (h : k < bs.length) → t.byteAt (s.i.toNat + k) = bs[k]) ∧
      (∀ a, a < s.i.toNat ∨ s.i.toNat + bs.length ≤ a → t.byteAt a = s.byteAt a) ∧ t = { s with mem := t.mem, pc := s.pc + 2 } :=
  ⟨_, exec_of_effect e, fun _ hk => s.mem.readByte_writeBytes_of_inside s.base hk,
    fun _ ha => s.mem.readByte_writeBytes_of_outside ha, rfl⟩

/-- Settles O32: the effect stores the three digits at I where they fit, and the instruction faults where they do not. -/
theorem storeBCDStoresTheDigits : Obligations.StoreBCDStoresTheDigits := by
  refine fun x s => ⟨decode_encode (i := .storeBCD x) rfl, fun h => ?_, fun h => exec_of_faults (.storeBCD x h)⟩
  obtain ⟨t, ht, hin, hout, hframe⟩ := exec_of_store_effect (.storeBCD x h)
  have hdigit (k : Nat) (hk : k < 3) :
      (t.byteAt (s.i.toNat + k)).toNat = [(s.reg x).toNat / 100, (s.reg x).toNat / 10 % 10, (s.reg x).toNat % 10][k] := by
    rw [hin k hk, toNat_bcdDigits _ hk]
  exact ⟨t, ht, hdigit 0 (by decide), hdigit 1 (by decide), hdigit 2 (by decide), hout, hframe⟩

/-- What RegisterDump does where its range lies in memory (R144). -/
theorem exec_registerDump {x : Reg} {s : State} (h : s.i.toNat + x.val + 1 ≤ 4096) :
    ∃ t, exec (.registerDump x) s = .next t ∧ (∀ k : Reg, k.val ≤ x.val → t.byteAt (s.i.toNat + k.val) = s.reg k) ∧
      (∀ a, a < s.i.toNat ∨ s.i.toNat + x.val + 1 ≤ a → t.byteAt a = s.byteAt a) ∧
      t = { s with mem := t.mem, pc := s.pc + 2 } := by
  obtain ⟨t, ht, hin, hout, hframe⟩ := exec_of_store_effect (.registerDump x h)
  rw [length_dumpBytes] at hout
  refine ⟨t, ht, fun k hk => ?_, hout, hframe⟩
  have hlen : k.val < (dumpBytes s x).length := by
    rw [length_dumpBytes]
    exact Nat.lt_succ_of_le hk
  rw [hin k.val hlen, getElem_dumpBytes]

/-- Settles O33: the effect where the range lies in memory, the fault where it does not. -/
theorem registerDumpStoresTheRegisters : Obligations.RegisterDumpStoresTheRegisters := fun x _ =>
  ⟨decode_encode (i := .registerDump x) rfl, exec_registerDump, fun h => exec_of_faults (.registerDump x h)⟩

/-! ### The load at I (R145) -/

/-- What RegisterLoad does where its range lies in memory (R145). -/
theorem exec_registerLoad {x : Reg} {s : State} (h : s.i.toNat + x.val + 1 ≤ 4096) :
    ∃ t, exec (.registerLoad x) s = .next t ∧
      (∀ k : Reg, t.reg k = if k.val ≤ x.val then s.byteAt (s.i.toNat + k.val) else s.reg k) ∧
      t = { s with v := t.v, pc := s.pc + 2 } := by
  refine ⟨_, exec_of_effect (.registerLoad x h), setRegs_upTo_reg s x s.base, ?_⟩
  rw [setRegs_eq]
  rfl

/-- Settles O34: the effect where the range lies in memory, the fault where it does not. -/
theorem registerLoadLoadsTheRegisters : Obligations.RegisterLoadLoadsTheRegisters := fun x _ =>
  ⟨decode_encode (i := .registerLoad x) rfl, exec_registerLoad, fun h => exec_of_faults (.registerLoad x h)⟩

/-! ### A dump and the load after it (R144, R145) -/

/-- Settles O35: the dump keeps I, so the load reads the bytes the dump stored, whatever registers stand between. -/
theorem dumpThenLoadRestores : Obligations.DumpThenLoadRestores := by
  intro x s v h
  obtain ⟨t, ht, hstored, -, hdump⟩ := exec_registerDump h
  have hi : t.i = s.i := by rw [hdump]
  have hread (k : Reg) (hk : k.val ≤ x.val) : t.byteAt (t.i.toNat + k.val) = s.reg k := by rw [hi, hstored k hk]
  obtain ⟨u, hu, hloaded, hload⟩ := exec_registerLoad (s := { t with v := v }) (x := x) (by rw [hi]; exact h)
  refine ⟨t, u, ht, hu, by rw [hload]; exact hi, fun k => ?_⟩
  rw [hloaded k]
  split
  · rename_i hk
    exact hread k hk
  · rfl

end Sys2Proof.Machine
end

section
/-! PROOFS. The display (45_display.md): Draw said once by the cells its sprite hits, and from that its clipping, its collision and its
undoing by a second Draw. -/

namespace Sys2Proof.Machine

/-! ### ClearScreen (R150) -/

/-- Settles O37: the word by its row, whose mask leaves n1 out; the effect replaces the framebuffer by the clear one. -/
theorem clearScreenClearsEveryCell : Obligations.ClearScreenClearsEveryCell := fun x _ =>
  ⟨decode_clearScreenRow (formRC_and_ends 0x0 x 0x0E), _, exec_of_effect .clearScreen, Framebuffer.cell_clear, rfl⟩

/-! ### The cells a Draw hits, and its collision (R151, R152) -/

/-- The sprite of n bytes at I, its origin at column V[x] and row V[y], has a 1 bit on cell (px, py) (R151). -/
def SpriteHit (s : State) (x y : Reg) (n : Nibble) (px py : Nat) : Prop :=
  (s.reg x).toNat ≤ px ∧ px < (s.reg x).toNat + 8 ∧ (s.reg y).toNat ≤ py ∧ py < (s.reg y).toNat + n.toNat ∧
    (s.byteAt (s.i.toNat + (py - (s.reg y).toNat))).getLsbD (7 - (px - (s.reg x).toNat)) = true

/-- A 1 bit of the sprite falls on a cell of the grid that is 1 (R152). -/
def Collides (s : State) (x y : Reg) (n : Nibble) : Prop :=
  ∃ px py, px ≤ 63 ∧ py ≤ 31 ∧ SpriteHit s x y n px py ∧ s.cell px py = true

theorem not_spriteHit_of_height_zero (s : State) (x y : Reg) (px py : Nat) : ¬ SpriteHit s x y 0 px py := by
  rintro ⟨-, -, hlo, hhi, -⟩
  exact Nat.not_lt.mpr hlo hhi

theorem not_spriteHit_of_origin_outside {s : State} {x y : Reg} {n : Nibble} {px py : Nat} (hx : px ≤ 63) (hy : py ≤ 31)
    (h : 64 ≤ (s.reg x).toNat ∨ 32 ≤ (s.reg y).toNat) : ¬ SpriteHit s x y n px py := by
  rintro ⟨hcol, -, hrow, -, -⟩
  omega

/-- A sprite is made of I, memory and the two registers of its origin. -/
theorem spriteHit_eq_of_same {s t : State} {x y : Reg} (n : Nibble) (hi : t.i = s.i) (hmem : t.mem = s.mem)
    (hx : t.reg x = s.reg x) (hy : t.reg y = s.reg y) : SpriteHit t x y n = SpriteHit s x y n := by
  unfold SpriteHit State.byteAt
  rw [hi, hmem, hx, hy]

theorem drawScan_cell {x y : Reg} {n : Nibble} {s : State} {px py : Nat} (hx : px ≤ 63) (hy : py ≤ 31) :
    Framebuffer.cell (drawScan x y n s).1 px py = true ↔ (s.cell px py = true ↔ ¬ SpriteHit s x y n px py) := by
  rw [drawScan, drawSprite, drawRows_cell _ _ _ _ ⟨hx, hy⟩, spritePixel_readBytes]
  rfl

theorem drawScan_cell_of_hit {x y : Reg} {n : Nibble} {s : State} {px py : Nat} (hx : px ≤ 63) (hy : py ≤ 31)
    (h : SpriteHit s x y n px py) : Framebuffer.cell (drawScan x y n s).1 px py = !s.cell px py := by
  rw [Bool.eq_iff_iff, drawScan_cell hx hy]
  simp [h]

theorem drawScan_cell_of_not_hit {x y : Reg} {n : Nibble} {s : State} {px py : Nat} (hx : px ≤ 63) (hy : py ≤ 31)
    (h : ¬ SpriteHit s x y n px py) : Framebuffer.cell (drawScan x y n s).1 px py = s.cell px py := by
  rw [Bool.eq_iff_iff, drawScan_cell hx hy]
  simp [h]

theorem drawScan_collision {x y : Reg} {n : Nibble} {s : State} : (drawScan x y n s).2 = true ↔ Collides s x y n := by
  rw [drawScan, drawSprite, drawRows_collision]
  simp only [spritePixel_readBytes, Bool.false_eq_true, false_or]
  rfl

theorem flagByte_eq_one_iff {c : Bool} : flagByte c = 1#8 ↔ c = true := by cases c <;> decide

theorem flagByte_eq_zero_iff {c : Bool} : flagByte c = 0#8 ↔ ¬ c = true := by cases c <;> decide

/-- What Draw does where its sprite lies in memory or has no row (R152). -/
theorem exec_draw {x y : Reg} {n : Nibble} {s : State} (h : n = 0 ∨ s.i.toNat + n.toNat ≤ 4096) :
    ∃ t, exec (.draw x y n) s = .next t ∧
      (∀ px py, px ≤ 63 → py ≤ 31 → (SpriteHit s x y n px py → t.cell px py = !s.cell px py) ∧
        (¬ SpriteHit s x y n px py → t.cell px py = s.cell px py)) ∧
      (t.reg 15 = 1 ↔ Collides s x y n) ∧ (t.reg 15 = 0 ↔ ¬ Collides s x y n) ∧
      (∀ k, k ≠ 15 → t.reg k = s.reg k) ∧ t = { s with v := t.v, fb := t.fb, pc := s.pc + 2 } := by
  refine ⟨_, exec_of_effect (.draw x y n h), fun px py hx hy => ⟨drawScan_cell_of_hit hx hy, drawScan_cell_of_not_hit hx hy⟩,
    ?_, ?_, fun k hk => ?_, rfl⟩
  · simp [flagByte_eq_one_iff, drawScan_collision]
  · simp [flagByte_eq_zero_iff, drawScan_collision]
  · simp [hk]

/-- Settles O38: the word is the encoder's, the effect where the sprite's bytes lie in memory, the fault where they do not. -/
theorem drawTogglesTheSprite : Obligations.DrawTogglesTheSprite := by
  intro x y n s hit hhit
  obtain rfl : hit = SpriteHit s x y n := funext₂ fun px py => propext (hhit px py)
  have height_zero_iff : n.toNat = 0 ↔ n = 0 := BitVec.toNat_inj (y := 0#4)
  refine ⟨decode_encode (i := .draw x y n) rfl, fun h => ?_, fun hpos hout => ?_⟩
  · obtain ⟨t, ht, hcell, hone, hzero, hframe⟩ := exec_draw (h.imp_left height_zero_iff.mp)
    exact ⟨t, ht, hcell, hone.mpr, hzero.mpr, hframe⟩
  · exact exec_of_faults (.draw x y n ⟨fun hn => hpos.ne' (height_zero_iff.mpr hn), hout⟩)

/-! ### A sprite that touches no cell (R153 a, c, d) -/

/-- Settles O40: no cell of the grid is hit, so every cell is kept and nothing collides. -/
theorem drawOffTheGridDrawsNothing : Obligations.DrawOffTheGridDrawsNothing := by
  intro x y n s h
  have hmiss (px py : Nat) (hx : px ≤ 63) (hy : py ≤ 31) : ¬ SpriteHit s x y n px py := by
    rcases h with rfl | ⟨-, hout⟩
    · exact not_spriteHit_of_height_zero s x y px py
    · exact not_spriteHit_of_origin_outside hx hy hout
  obtain ⟨t, ht, hcell, -, hflag, -⟩ := exec_draw (x := x) (y := y) (h.imp_right And.left)
  refine ⟨t, ht, Framebuffer.ext_cells fun px py hx hy => (hcell px py hx hy).2 (hmiss px py hx hy), hflag.mpr ?_⟩
  rintro ⟨px, py, hx, hy, hp, -⟩
  exact hmiss px py hx hy hp

/-! ### The same sprite twice (R153 e) -/

/-- Settles O39: the first draw keeps I, memory and the origin, so the second hits the same cells: the exclusive or is undone, and a
hit cell is 1 before the second draw where it was 0 before the first. -/
theorem drawTwiceRestores : Obligations.DrawTwiceRestores := by
  intro x y n s hx15 hy15 h
  obtain ⟨t, ht, hfirst, -, -, hreg, hframe⟩ := exec_draw (x := x) (y := y) h
  have hi : t.i = s.i := by rw [hframe]
  have hsame : SpriteHit t x y n = SpriteHit s x y n :=
    spriteHit_eq_of_same n hi (by rw [hframe]) (hreg x hx15) (hreg y hy15)
  obtain ⟨u, hu, hsecond, hflag, -⟩ := exec_draw (x := x) (y := y) (s := t) (by rwa [hi])
  rw [hsame] at hsecond
  refine ⟨t, u, ht, hu, Framebuffer.ext_cells fun px py hx hy => ?_, hflag.trans ?_⟩
  · obtain ⟨first_of_hit, first_of_not_hit⟩ := hfirst px py hx hy
    obtain ⟨second_of_hit, second_of_not_hit⟩ := hsecond px py hx hy
    by_cases hp : SpriteHit s x y n px py
    · exact (second_of_hit hp).trans ((congrArg not (first_of_hit hp)).trans (Bool.not_not _))
    · exact (second_of_not_hit hp).trans (first_of_not_hit hp)
  · have hcollides : Collides t x y n ↔ ∃ px py, px ≤ 63 ∧ py ≤ 31 ∧ SpriteHit s x y n px py ∧ s.cell px py = false := by
      unfold Collides
      rw [hsame]
      refine exists₂_congr fun px py => and_congr_right fun hx => and_congr_right fun hy => and_congr_right fun hp => ?_
      rw [(hfirst px py hx hy).1 hp, Bool.not_eq_true']
    simpa only [SpriteHit, and_assoc] using hcollides

end Sys2Proof.Machine
end

section
/-! PROOFS. BlockingGetKey (46_timer_key.md R163) off its two effects: the wait while no key is held, and the least held key taken. -/

namespace Sys2Proof.Machine

theorem toNat_keyByte (k : Reg) : (keyByte k).toNat = k.val :=
  (BitVec.toNat_ofNat k.val 8).trans (Nat.mod_eq_of_lt (k.isLt.trans (by decide)))

/-- Settles O42: the word is the encoder's; with no key held the effect is the wait, and a held key with none lower held is the one the
scan finds and writes to V[X]. -/
theorem blockingGetKeyWaitsOrTakesTheLeast : Obligations.BlockingGetKeyWaitsOrTakesTheLeast := by
  refine fun x s => ⟨decode_encode (i := .blockingGetKey x) rfl, fun hnone => ?_, fun k hheld hleast => ?_⟩
  · exact exec_of_effect (.wait x (lowestKey_none_iff.mpr hnone))
  · have hk : lowestKey s = some k := lowestKey_some_iff.mpr ⟨hheld, hleast⟩
    exact (exec_of_setReg_effect (.takeKey x k hk)).imp fun _ ⟨ht, hx, hframe⟩ => ⟨ht, hx ▸ toNat_keyByte k, hframe⟩

end Sys2Proof.Machine
end

section
/-! PROOFS. The table of OutOfBounds faults (60_exceptions.md R172), and the two operations by which the host fills the block, Reset and
LoadProgram (70_reset_and_hazards.md R190, R193). -/

namespace Sys2Proof.Machine

/-! ### OutOfBounds (R172) -/

/-- Settles O14: the fetch's row is O8; each instruction's row is its own law of faulting, and one without a row has no case of `Faults`. -/
theorem outOfBoundsExactlyAsTabulated : Obligations.OutOfBoundsExactlyAsTabulated := by
  refine ⟨fun s => (fetchFaultsExactlyPastTheEnd s).1.trans Nat.succ_le_succ_iff, fun i s f => ?_⟩
  cases i with
  | draw x y n =>
    have height_pos_iff : n ≠ 0#4 ↔ n.toNat > 0 := BitVec.toNat_ne_iff_ne.symm.trans Nat.pos_iff_ne_zero.symm
    exact execDraw_fault_iff.trans (and_comm.trans (and_congr_right' (and_congr_left' height_pos_iff)))
  | registerLoad x => exact execRegisterLoad_fault_iff.trans and_comm
  | storeBCD x => exact execStoreBCD_fault_iff.trans and_comm
  | registerDump x => exact execRegisterDump_fault_iff.trans and_comm
  | callSub addr => exact execCallSub_fault_iff.trans and_comm
  | returnFromSub => exact execReturnFromSub_fault_iff.trans and_comm
  | skipIfKey x => exact (skipOnKey_fault_iff (cond := fun held => held)).trans and_comm
  | skipIfNotKey x => exact skipOnKey_fault_iff.trans and_comm
  | _ => exact iff_of_false (fun h => nomatch faults_of_exec h) id

/-! ### Reset (R190) -/

theorem unlisted_of_le {a : Nat} (h : 80 ≤ a) : unlisted a = 0 :=
  List.getD_eq_default _ _ (by simpa using h)

theorem readByte_resetMemory (font : Vector Byte 80) (a : Nat) :
    (resetMemory font).readByte a = if h : a < 80 then font[a] else 0 := by
  split
  · rename_i h
    have hread := Memory.readByte_writeBytes_of_inside [] 0 (bs := font.toList) (k := a) (by simpa using h)
    rw [Nat.zero_add] at hread
    exact hread.trans (Vector.getElem_toList _)
  · rename_i h
    rw [resetMemory, Memory.readByte_writeBytes_of_outside [] (.inr (by simpa using h))]
    exact unlisted_of_le (Nat.le_of_not_lt h)

/-- The model's FONT is what unlisted addresses read as, so the memory it resets lists nothing (log 4). -/
theorem resetMemory_fontTable : resetMemory fontTable = [] := by
  obtain ⟨hread, -⟩ := resetIsAsTabulated
  exact equalBytesAreEqualMemories _ _ (hostReset_inv fontTable State.reset).memory Memory.nil_wf fun a ha =>
    (readByte_resetMemory fontTable a).trans (hread a ha).symm

/-- Settles O52: memory reads as the font, every other element is that of `State.reset`, which O51 tabulates. -/
theorem hostResetFromAnyState : Obligations.HostResetFromAnyState := by
  rintro font s _ rfl
  obtain ⟨-, hreg, hi, hpc, hslot, hsp, hdt, hst, hcell, hkeys⟩ := resetIsAsTabulated
  exact ⟨readByte_resetMemory font, hreg, hi, hpc, hslot, hsp, hdt, hst, hcell, hkeys, rfl, rfl,
    by rw [hostReset, resetMemory_fontTable]; rfl⟩

/-! ### LoadProgram (R193) -/

theorem loadProgram_of_fits {bytes : List Byte} (s : State) (h : bytes.length ≤ 3584) :
    loadProgram bytes s = .ok (s.setMem (s.mem.writeBytes 0x200 bytes)) :=
  if_neg (Nat.not_lt.mpr h)

theorem loadProgram_of_tooLong {bytes : List Byte} (s : State) (h : bytes.length > 3584) : loadProgram bytes s = .error .tooLarge :=
  if_pos h

/-- Settles O53: a sequence that fits is stored at 0x200, and the store's two laws read the memory after it. -/
theorem loadProgramCopiesTheBytes : Obligations.LoadProgramCopiesTheBytes := by
  refine fun bytes s => ⟨fun h => ?_, fun h => ?_⟩
  · exact ⟨_, loadProgram_of_fits s h, afterHostOp_loadProgram s h,
      fun k hk => Memory.readByte_writeBytes_of_inside s.mem 0x200 hk,
      fun a ha => Memory.readByte_writeBytes_of_outside s.mem ha, rfl⟩
  · have htoo := loadProgram_of_tooLong s h
    exact ⟨htoo, by rw [afterHostOp, htoo]⟩

end Sys2Proof.Machine
end
